-- ==== Sys2Proof/Word.lean ====
section
/-! DEFINITION. The word types of the block: stream bytes, 16-bit frame fields, 32-bit binary32 patterns
(spec/00_scope.md R7 and R10; spec/20_memory.md R34 and R37). -/

namespace Sys2Proof

/-- One input symbol, `BYTE_W` = 8 bits (R7). -/
abbrev Byte := BitVec 8

/-- One frame field, `FIELD_W` = 16 bits (R7). -/
abbrev Half := BitVec 16

/-- One binary32 pattern (R12): a threshold, a sample field, an intensity. -/
abbrev Word := BitVec 32

end Sys2Proof
end

