-- ==== Sys2Proof/Machine/Params.lean ====
section
/-! DEFINITION. The fixed parameters of spec/00_scope.md R7. -/

namespace Sys2Proof.Machine

/-- `FRAME_LEN`: a frame is 20 bytes (R7, R43). -/
def frameLen : Nat := 20

/-- `HDR0`, the first header byte in stream order (R7, R33). -/
def hdr0 : Byte := 0x55#8

/-- `HDR1`, the second header byte (R7, R33). -/
def hdr1 : Byte := 0x61#8

/-- Numerator of `ACC_SCALE` = 16.0/32768.0 (R7, R60). -/
def accRange : Nat := 16

/-- Numerator of `GYRO_SCALE` = 2000.0/32768.0 (R7, R61). -/
def gyroRange : Nat := 2000

/-- Numerator of `ANG_SCALE` = 180.0/32768.0 (R7, R62). -/
def angRange : Nat := 180

/-- The denominator shared by the three scales (R7). -/
def fullScale : Nat := 32768

/-- `BASELINE`, 2.09 g (R7). -/
def baseline : Word := 0x4005C28F#32

/-- `UPPER_FLOOR`, 0.1 g (R7). -/
def upperFloor : Word := 0x3DCCCCCD#32

/-- `LOWER_FLOOR`, 0.01 g (R7). -/
def lowerFloor : Word := 0x3C23D70A#32

/-- `UPPER_DEFAULT`, 1.5 g (R7, R26). -/
def upperDefault : Word := 0x3FC00000#32

/-- `LOWER_DEFAULT`, 0.1 g (R7, R26). -/
def lowerDefault : Word := 0x3DCCCCCD#32

/-- `INTENSITY_CAP`, 2.0 (R7, R72). -/
def intensityCap : Word := 0x40000000#32

/-- The binary32 pattern of +0.0. -/
def posZero : Word := 0#32

end Sys2Proof.Machine
end

