-- ==== Sys2Proof/Syntax.lean ====
section
/-! DEFINITION. The operations of the block, one constructor per row of spec/opcode_table.json, and the two formats that
select them: the input ports of one cycle and the 20-byte window (spec/30_encoding.md). -/

namespace Sys2Proof

/-- The nine 16-bit fields of a frame in stream order: the source's RawFrame (R43, R44). -/
structure RawFrame where
  ax : Half
  ay : Half
  az : Half
  wx : Half
  wy : Half
  wz : Half
  roll : Half
  pitch : Half
  yaw : Half
deriving DecidableEq, Repr

/-- The input ports as the rising edge of `clk` samples them (R20). -/
structure PortIn where
  rst : Bool
  inValid : Bool
  inLast : Bool
  cfgUpperWe : Bool
  cfgLowerWe : Bool
  rearm : Bool
  inData : Byte
  cfgUpperWdata : Word
  cfgLowerWdata : Word
deriving DecidableEq, Repr

/-- The operations of R47: eight that a control vector selects and three internal ones. -/
inductive Instr where
  /-- RESET, R99. -/
  | reset
  /-- IDLE, R83. -/
  | idle
  /-- BYTE, R53: `b` is `in_data`. -/
  | byte (b : Byte)
  /-- BYTE_LAST, R54: `b` is `in_data`. -/
  | byteLast (b : Byte)
  /-- SET_UPPER, R74: `p` is `cfg_upper_wdata`. -/
  | setUpper (p : Word)
  /-- SET_LOWER, R75: `p` is `cfg_lower_wdata`. -/
  | setLower (p : Word)
  /-- SET_THRESHOLDS, R76: both write ports. -/
  | setThresholds (pu pl : Word)
  /-- REARM, R77. -/
  | rearm
  /-- FRAME_DECODE, R55, internal: `f` is the window's eighteen payload bytes as nine fields. -/
  | frameDecode (f : RawFrame)
  /-- WINDOW_SKIP, R56, internal: `w0` and `w1` are the window bytes that are no header. -/
  | windowSkip (w0 w1 : Byte)
  /-- PROCESS, R71, internal: `v` is the compensated magnitude to evaluate. -/
  | process (v : Word)
deriving DecidableEq, Repr

/-- What a decoder of the block reads: the ports of a cycle (R46) or the window after an append (R45). -/
inductive Code where
  | ports (p : PortIn)
  | window (w : List Byte)
deriving DecidableEq, Repr

end Sys2Proof
end

