-- ==== Sys2Proof/Config.lean ====
section
/-! DEFINITION. What the spec leaves to an implementation, and the free values: constants with no body, so that
nothing can be proved of the number they stand for (spec/93_implementation_defined.md, part 1). -/

namespace Sys2Proof.Config

/-- `DEC_LATENCY - 1`. The spec gives only that the latency is an integer of 1 or more (R8). DESIGN CHOICE,
safe (log entry 5). -/
opaque extraLatency : Nat

/-- `DEC_LATENCY`, the open output delay of R8: constant, at least 1, otherwise unknown. -/
def decLatency : Nat := extraLatency + 1

/-- The `n`-th unspecified 32-bit port value: a data port while its strobe is 0, a threshold read-back while it is
unspecified (R21, R22, R26, R86). DESIGN CHOICE, safe (log entry 2). -/
opaque freeWord : Nat → Word

/-- The `n`-th unspecified one-bit port value: `armed_o` while it is unspecified (R26). DESIGN CHOICE, safe (log entry
2). -/
opaque freeBit : Nat → Bool

/-- The binary32 operations of R12. They index the one thing IEEE 754 leaves open about them, the NaN they return. -/
inductive FpOp where
  | add | sub | mul | div | sqrt
deriving DecidableEq, Repr

/-- The sign and the low 22 fraction bits of the quiet NaN that an operation returns. R12 says only that a NaN results.
No operation of the block reaches one (R70, R82). PRESUMED (IEEE 754; log entry 3). -/
opaque nanPayload : FpOp → Word → Word → BitVec 23

end Sys2Proof.Config
end

