-- ==== Sys2Proof/Machine/Float.lean ====
section
/-! DEFINITION. The binary32 primitives of spec/00_scope.md R12.

Every finite binary32 value is an integer multiple of `2^-149`, the smallest subnormal. `units p` is that integer, so the
exact sum, product or quotient of R12 is formed in integers and narrowed once, at the end, by `roundQuot` or `roundSqrt`. -/

namespace Sys2Proof.Machine

/-- Sign, bit 31 (R12). -/
def signBit (p : Word) : Bool := p.getLsbD 31

/-- Biased exponent, bits 30:23 (R12). -/
def expField (p : Word) : Nat := (p.extractLsb' 23 8).toNat

/-- Fraction, bits 22:0 (R12). -/
def fracField (p : Word) : Nat := (p.extractLsb' 0 23).toNat

/-- The pattern without its sign: bits 30:0, as a number. -/
def magField (p : Word) : Nat := (p.extractLsb' 0 31).toNat

/-- NaN: exponent 255 and a non-zero fraction (R12). -/
def isNaN (p : Word) : Bool := expField p == 255 && fracField p != 0

/-- A signed infinity (R12). -/
def isInf (p : Word) : Bool := expField p == 255 && fracField p == 0

/-- A normal number, a subnormal number or a signed zero (R12). -/
def isFinite (p : Word) : Bool := expField p != 255

/-- Either signed zero. -/
def isZero (p : Word) : Bool := magField p == 0

/-- The magnitude of a finite pattern as a multiple of `2^-149`: the significand shifted by its exponent (R12). -/
def magUnits (p : Word) : Nat :=
  if expField p = 0 then fracField p else (fracField p + 2 ^ 23) * 2 ^ (expField p - 1)

/-- The value of a finite pattern, `F32(p)` of R12, as a multiple of `2^-149`. -/
def units (p : Word) : Int := if signBit p then -(magUnits p : Int) else (magUnits p : Int)

/-- A pattern from a sign and a magnitude field. -/
def withSign (neg : Bool) (mag : Nat) : Word := BitVec.ofBool neg ++ BitVec.ofNat 31 mag

/-- The magnitude field of +infinity. -/
def infMag : Nat := 0x7F800000

/-- A signed infinity. -/
def infinity (neg : Bool) : Word := withSign neg infMag

/-- The quiet NaN an invalid operation returns; its sign and payload are free. PRESUMED (log entry 3). -/
def nanResult (op : Config.FpOp) (a b : Word) : Word :=
  let payload := Config.nanPayload op a b
  payload.extractLsb' 22 1 ++ 0xFF#8 ++ 1#1 ++ payload.extractLsb' 0 22

/-- `2^k` multiples of `2^-149` is the spacing of binary32 around a magnitude of `x` such multiples: 24 significant
bits, and never below `2^-149` itself. -/
def spacingExp (x : Nat) : Nat := Nat.log2 x - 23

/-- The increment of roundTiesToEven: `q` steps have been taken and the remainder compares to half a step as `half`. -/
def tieToEven (q : Nat) (half : Ordering) : Nat :=
  match half with
  | .lt => q
  | .gt => q + 1
  | .eq => q + q % 2

/-- The magnitude field of `q` steps of size `2^k`, a carry out of the significand going into the exponent; past the
largest finite number the field is infinity's. -/
def packMag (k q : Nat) : Nat := min (k * 2 ^ 23 + q) infMag

/-- `rnd32` of the quotient `n / d` (in multiples of `2^-149`, `d` positive), as a magnitude field (R12). -/
def roundQuot (n d : Nat) : Nat :=
  let k := spacingExp (n / d)
  let step := d * 2 ^ k
  packMag k (tieToEven (n / step) (compare (2 * (n % step)) step))

/-- The integer square root of `n`, bit by bit below `2^bits`, starting from the root `r` found so far. -/
def isqrtFrom (n : Nat) : Nat → Nat → Nat
  | 0, r => r
  | bits + 1, r => isqrtFrom n bits (if (r + 2 ^ bits) * (r + 2 ^ bits) ≤ n then r + 2 ^ bits else r)

/-- The integer square root of `n`. -/
def isqrt (n : Nat) : Nat := isqrtFrom n (Nat.log2 n / 2 + 1) 0

/-- `rnd32` of the square root of `n` (in multiples of `2^-149`), as a magnitude field (R12). -/
def roundSqrt (n : Nat) : Nat :=
  let k := spacingExp (isqrt n)
  let q := isqrt (n / 4 ^ k)
  packMag k (tieToEven q (compare (4 * n) ((2 * q + 1) * (2 * q + 1) * 4 ^ k)))

/-- `rnd32` of the rational `± n / d` (R12): the exact value, rounded once. -/
def ofRatio (neg : Bool) (n d : Nat) : Word := withSign neg (roundQuot (n * 2 ^ 149) d)

/-- `add32`: the correctly rounded sum (R12). An exact zero sum is -0 only when both operands are
-0. PRESUMED (IEEE 754), unsafe (log entry 11). -/
def add32 (a b : Word) : Word :=
  if isNaN a || isNaN b then nanResult .add a b
  else if isInf a then
    if isInf b && (signBit a != signBit b) then nanResult .add a b else a
  else if isInf b then b
  else
    let sum := units a + units b
    if sum = 0 then withSign (signBit a && signBit b) 0
    else withSign (decide (sum < 0)) (roundQuot sum.natAbs 1)

/-- A pattern with its sign inverted. -/
def neg32 (p : Word) : Word := p ^^^ 0x80000000#32

/-- `sub32`: the correctly rounded difference (R12). -/
def sub32 (a b : Word) : Word :=
  if isNaN a || isNaN b || (isInf a && isInf b && (signBit a == signBit b)) then nanResult .sub a b
  else add32 a (neg32 b)

/-- `mul32`: the correctly rounded product (R12). -/
def mul32 (a b : Word) : Word :=
  let neg := signBit a != signBit b
  if isNaN a || isNaN b then nanResult .mul a b
  else if isInf a || isInf b then
    if isZero a || isZero b then nanResult .mul a b else infinity neg
  else withSign neg (roundQuot (magUnits a * magUnits b) (2 ^ 149))

/-- `div32`: the correctly rounded quotient (R12). Zero and infinite operands as IEEE 754 has them. PRESUMED, unsafe (log
entry 11). -/
def div32 (a b : Word) : Word :=
  let neg := signBit a != signBit b
  if isNaN a || isNaN b then nanResult .div a b
  else if isInf a then
    if isInf b then nanResult .div a b else infinity neg
  else if isInf b then withSign neg 0
  else if isZero b then
    if isZero a then nanResult .div a b else infinity neg
  else withSign neg (roundQuot (magUnits a * 2 ^ 149) (magUnits b))

/-- `sqrt32`: the correctly rounded square root (R12). A zero is its own root. PRESUMED, unsafe (log
entry 11). -/
def sqrt32 (a : Word) : Word :=
  if isNaN a then nanResult .sqrt a a
  else if isZero a then a
  else if signBit a then nanResult .sqrt a a
  else if isInf a then a
  else withSign false (roundSqrt (magUnits a * 2 ^ 149))

/-- The place of a pattern that is not NaN in the order of its values: both zeros at 0 (R12). The magnitude fields of
binary32 are ordered as their values are. -/
def orderKey (p : Word) : Int := if signBit p then -(magField p : Int) else (magField p : Int)

/-- `gt32`: ordered greater-than, false on NaN, +0 equal to -0 (R12). -/
def gt32 (a b : Word) : Bool := !isNaN a && !isNaN b && decide (orderKey b < orderKey a)

/-- `lt32`: ordered less-than (R12). -/
def lt32 (a b : Word) : Bool := !isNaN a && !isNaN b && decide (orderKey a < orderKey b)

/-- `ge32`: ordered greater-or-equal (R12). -/
def ge32 (a b : Word) : Bool := !isNaN a && !isNaN b && decide (orderKey b ≤ orderKey a)

end Sys2Proof.Machine
end

