-- ==== Sys2Proof/WellFormed.lean ====
section
/-! DEFINITION. Which terms of `Instr` stand for an operation of the block. The types give every operand its width; two
checks remain. -/

namespace Sys2Proof

/-- The two bytes are the synchronization header (R33, R45). -/
def isHeader (w0 w1 : Byte) : Bool := w0 == Machine.hdr0 && w1 == Machine.hdr1

/-- An operation the block can perform: a window that starts with the header is never skipped (R56), and the detector is
never given a NaN or an infinity (R82). -/
def Instr.wellFormed : Instr → Bool
  | .reset => true
  | .idle => true
  | .byte _ => true
  | .byteLast _ => true
  | .setUpper _ => true
  | .setLower _ => true
  | .setThresholds _ _ => true
  | .rearm => true
  | .frameDecode _ => true
  | .windowSkip w0 w1 => !isHeader w0 w1
  | .process v => Machine.isFinite v

end Sys2Proof
end

