-- ==== Sys2Proof/Decode.lean ====
section
/-! DEFINITION. The two decoders of the block and their encoder (spec/30_encoding.md): the control vector of a cycle selects
the cycle's operations (R46, R47), and a full window selects FRAME_DECODE or WINDOW_SKIP (R45, R47). -/

namespace Sys2Proof

/-- Why a code selects no operation. -/
inductive DecodeError where
  /-- The window does not hold exactly 20 bytes: no test is made (R53). -/
  | windowNotFull
deriving DecidableEq, Repr

/-- A row of R47's table: a control vector is the row's when it equals `value` under `mask`. -/
structure ControlRow where
  value : BitVec 6
  mask : BitVec 6
deriving DecidableEq, Repr

/-- R47's match test. -/
def ControlRow.selects (r : ControlRow) (cv : BitVec 6) : Bool := (cv &&& r.mask) == r.value

/-- RESET's row of R47. -/
def rowReset : ControlRow := ⟨0b100000#6, 0b100000#6⟩
/-- IDLE's row of R47: bit 3, `in_last`, is ignored (R49). -/
def rowIdle : ControlRow := ⟨0b000000#6, 0b110111#6⟩
/-- BYTE's row of R47. -/
def rowByte : ControlRow := ⟨0b010000#6, 0b111000#6⟩
/-- BYTE_LAST's row of R47. -/
def rowByteLast : ControlRow := ⟨0b011000#6, 0b111000#6⟩
/-- SET_UPPER's row of R47. -/
def rowSetUpper : ControlRow := ⟨0b000100#6, 0b100110#6⟩
/-- SET_LOWER's row of R47. -/
def rowSetLower : ControlRow := ⟨0b000010#6, 0b100110#6⟩
/-- SET_THRESHOLDS's row of R47. -/
def rowSetThresholds : ControlRow := ⟨0b000110#6, 0b100110#6⟩
/-- REARM's row of R47. -/
def rowRearm : ControlRow := ⟨0b000001#6, 0b100001#6⟩

/-- `CV[5:0] = rst ++ in_valid ++ in_last ++ cfg_upper_we ++ cfg_lower_we ++ rearm` (R46). -/
def controlVector (p : PortIn) : BitVec 6 :=
  BitVec.ofBool p.rst ++ BitVec.ofBool p.inValid ++ BitVec.ofBool p.inLast ++ BitVec.ofBool p.cfgUpperWe ++
    BitVec.ofBool p.cfgLowerWe ++ BitVec.ofBool p.rearm

/-- The ports that show the control vector `cv` with every operand 0. -/
def portsOf (cv : BitVec 6) : PortIn where
  rst := cv.getLsbD 5
  inValid := cv.getLsbD 4
  inLast := cv.getLsbD 3
  cfgUpperWe := cv.getLsbD 2
  cfgLowerWe := cv.getLsbD 1
  rearm := cv.getLsbD 0
  inData := 0#8
  cfgUpperWdata := 0#32
  cfgLowerWdata := 0#32

/-- The byte group's operation of a cycle, if any (R47). -/
def byteGroup (p : PortIn) : List Instr :=
  if rowByte.selects (controlVector p) then [.byte p.inData]
  else if rowByteLast.selects (controlVector p) then [.byteLast p.inData]
  else []

/-- The rearm group's operation of a cycle, if any (R47). -/
def rearmGroup (p : PortIn) : List Instr :=
  if rowRearm.selects (controlVector p) then [.rearm] else []

/-- The config group's operation of a cycle, if any (R47). -/
def configGroup (p : PortIn) : List Instr :=
  if rowSetUpper.selects (controlVector p) then [.setUpper p.cfgUpperWdata]
  else if rowSetLower.selects (controlVector p) then [.setLower p.cfgLowerWdata]
  else if rowSetThresholds.selects (controlVector p) then [.setThresholds p.cfgUpperWdata p.cfgLowerWdata]
  else []

/-- The operations of a cycle in the order R84 applies them: RESET alone, IDLE alone, or at most one operation of each
group, the byte first, then REARM, then the threshold writes (R47). -/
def decodePorts (p : PortIn) : List Instr :=
  if rowReset.selects (controlVector p) then [.reset]
  else if rowIdle.selects (controlVector p) then [.idle]
  else byteGroup p ++ rearmGroup p ++ configGroup p

/-- The two bytes of field `k`, the byte at the lower frame offset low: bits 15:8 are `W[3+2k]`, bits 7:0 are `W[2+2k]`
(R32, R44, R58). -/
def fieldOf (w : List Byte) (k : Nat) : Half := w.getD (3 + 2 * k) 0#8 ++ w.getD (2 + 2 * k) 0#8

/-- The nine fields of a 20-byte window, in the order of R43. -/
def frameOf (w : List Byte) : RawFrame where
  ax := fieldOf w 0
  ay := fieldOf w 1
  az := fieldOf w 2
  wx := fieldOf w 3
  wy := fieldOf w 4
  wz := fieldOf w 5
  roll := fieldOf w 6
  pitch := fieldOf w 7
  yaw := fieldOf w 8

/-- The window test (R47, R53): with 20 bytes present, the header alone decides between FRAME_DECODE and WINDOW_SKIP
(R45); with any other number no test is made. -/
def decodeWindow (w : List Byte) : Except DecodeError Instr :=
  if w.length = Machine.frameLen then
    if isHeader (w.getD 0 0#8) (w.getD 1 0#8) then .ok (.frameDecode (frameOf w))
    else .ok (.windowSkip (w.getD 0 0#8) (w.getD 1 0#8))
  else .error .windowNotFull

/-- The operations a code selects. -/
def decode : Code → Except DecodeError (List Instr)
  | .ports p => .ok (decodePorts p)
  | .window w => (decodeWindow w).map fun i => [i]

/-- The two bytes of a field as a frame stores them, low byte first (R43). -/
def fieldBytes (h : Half) : List Byte := [h.extractLsb' 0 8, h.extractLsb' 8 8]

/-- The 20 bytes of a frame (R43). -/
def frameBytes (f : RawFrame) : List Byte :=
  [Machine.hdr0, Machine.hdr1] ++ fieldBytes f.ax ++ fieldBytes f.ay ++ fieldBytes f.az ++ fieldBytes f.wx ++
    fieldBytes f.wy ++ fieldBytes f.wz ++ fieldBytes f.roll ++ fieldBytes f.pitch ++ fieldBytes f.yaw

/-- The code of an operation: the line codes of R52 with the operands of R46, or a window of R45 (its 144 don't-care
bits 0 for WINDOW_SKIP). PROCESS has no code: only a FRAME_DECODE issues it (R47, R71). -/
def encode : Instr → Option Code
  | .reset => some (.ports (portsOf rowReset.value))
  | .idle => some (.ports (portsOf rowIdle.value))
  | .byte b => some (.ports { portsOf rowByte.value with inData := b })
  | .byteLast b => some (.ports { portsOf rowByteLast.value with inData := b })
  | .setUpper p => some (.ports { portsOf rowSetUpper.value with cfgUpperWdata := p })
  | .setLower p => some (.ports { portsOf rowSetLower.value with cfgLowerWdata := p })
  | .setThresholds pu pl =>
    some (.ports { portsOf rowSetThresholds.value with cfgUpperWdata := pu, cfgLowerWdata := pl })
  | .rearm => some (.ports (portsOf rowRearm.value))
  | .frameDecode f => some (.window (frameBytes f))
  | .windowSkip w0 w1 => some (.window (w0 :: w1 :: List.replicate 18 0#8))
  | .process _ => none

/-- The `n` lowest bytes of a number, the lowest first. -/
def bytesOf : Nat → Nat → List Byte
  | 0, _ => []
  | n + 1, w => BitVec.ofNat 8 w :: bytesOf n (w / 256)

/-- The window of a table word in the FRAME160 format: the table's bits 15:8 are `W[0]` and bits 7:0 are `W[1]` (R45);
the payload bytes, which the table gives no bits, count on from bit 16 in stream order. -/
def tableWindow (w : Nat) : List Byte :=
  BitVec.ofNat 8 (w / 256) :: BitVec.ofNat 8 w :: bytesOf 18 (w / 65536)

/-- A table word as the block meets it: up to 8 bits are a control vector, whose two top bits must be 0 (it has six bits,
R46), with operands 0; more are the FRAME160 format. -/
def tableCode (nbits w : Nat) : Option Code :=
  if nbits = 0 then none
  else if nbits ≤ 8 then
    if w < 64 then some (.ports (portsOf (BitVec.ofNat 6 w))) else none
  else some (.window (tableWindow w))

/-- The operation the decoder reads from a table word; of a control vector that selects several, the first in R84's
order. DESIGN CHOICE, safe (log entry 8). -/
def decodeTableWord (nbits w : Nat) : Option Instr :=
  match tableCode nbits w with
  | none => none
  | some c =>
    match decode c with
    | .ok ops => ops.head?
    | .error _ => none

end Sys2Proof
end

