-- ==== Sys2Proof/Machine/Flags.lean ====
section
/-! DEFINITION. The one flag of the block, the detector mode `armed` (spec/10_state.md R18), and the kick that goes with its
transition (spec/41_kick_detector.md R71, R72). -/

namespace Sys2Proof.Machine

/-- Branch 1 of R71: the trigger edge. -/
def triggers (armed : Bool) (v upper : Word) : Bool := armed && gt32 v upper

/-- Branch 2 of R71: the re-arm edge. -/
def rearms (armed : Bool) (v lower : Word) : Bool := !armed && lt32 v lower

/-- `armed` after an evaluation, the branches in the source's priority order (R71). -/
def armedAfter (armed : Bool) (v upper lower : Word) : Bool :=
  if triggers armed v upper then false
  else if rearms armed v lower then true
  else armed

/-- `Intensity(v, U)`: `min(v / U, 2.0)` (R72). -/
def intensity (v upper : Word) : Word :=
  if lt32 (div32 v upper) intensityCap then div32 v upper else intensityCap

/-- The kick an evaluation emits, if any (R71). -/
def kickOf (armed : Bool) (v upper : Word) : Option Word :=
  if triggers armed v upper then some (intensity v upper) else none

end Sys2Proof.Machine
end

