-- ==== Sys2Proof/Machine/Output.lean ====
section
/-! DEFINITION. The output side of the block: the sample, the effects of one cycle, the output ports, and the delay of
`DEC_LATENCY` cycles between the two (spec/10_state.md R21 to R24; spec/42_cycle_step.md R85 and R86). -/

namespace Sys2Proof.Machine

/-- The source's SensorSample: eleven binary32 fields in port order (R21). -/
structure Sample where
  ax : Word
  ay : Word
  az : Word
  wx : Word
  wy : Word
  wz : Word
  roll : Word
  pitch : Word
  yaw : Word
  mag : Word
  comp : Word
deriving DecidableEq, Repr

/-- What the output ports will show of one cycle: the sample and the kick it made, and the detector state and thresholds
at its end (R85). -/
structure Effects where
  sample : Option Sample
  kick : Option Word
  armed : Bool
  upper : Word
  lower : Word
deriving DecidableEq, Repr

/-- The output registers, with the value each output port shows during a cycle (R20 to R23). -/
structure PortOut where
  smpValid : Bool
  smp : Sample
  kickValid : Bool
  kickIntensity : Word
  armedO : Bool
  upperQ : Word
  lowerQ : Word
deriving DecidableEq, Repr

/-- How many free values one presentation draws: eleven sample fields, one intensity, three status values. -/
def freePerCycle : Nat := 15

/-- Eleven unspecified sample fields (R21): the free values from `n` on. -/
def freeSample (n : Nat) : Sample where
  ax := Config.freeWord n
  ay := Config.freeWord (n + 1)
  az := Config.freeWord (n + 2)
  wx := Config.freeWord (n + 3)
  wy := Config.freeWord (n + 4)
  wz := Config.freeWord (n + 5)
  roll := Config.freeWord (n + 6)
  pitch := Config.freeWord (n + 7)
  yaw := Config.freeWord (n + 8)
  mag := Config.freeWord (n + 9)
  comp := Config.freeWord (n + 10)

/-- The ports that show the effects of a cycle; a data port whose strobe is 0 takes a free value (R85, R86). -/
def presentEffects (e : Effects) (n : Nat) : PortOut where
  smpValid := e.sample.isSome
  smp := e.sample.getD (freeSample n)
  kickValid := e.kick.isSome
  kickIntensity := e.kick.getD (Config.freeWord (n + 11))
  armedO := e.armed
  upperQ := e.upper
  lowerQ := e.lower

/-- The ports in the cycles after a RESET that no effect has reached yet: both strobes 0, everything else unspecified
(R26, R85). -/
def presentNothing (n : Nat) : PortOut where
  smpValid := false
  smp := freeSample n
  kickValid := false
  kickIntensity := Config.freeWord (n + 11)
  armedO := Config.freeBit (n + 12)
  upperQ := Config.freeWord (n + 13)
  lowerQ := Config.freeWord (n + 14)

/-- The ports of a cycle, given the effects that reach them, if any. -/
def present (shown : Option Effects) (n : Nat) : PortOut :=
  match shown with
  | some e => presentEffects e n
  | none => presentNothing n

/-- One clock of the output pipeline (R24, R85): the effects of the ending cycle enter, and those of `lat - 1` cycles
before it leave for the ports, once the pipeline has filled after a RESET. -/
def clockPipe (lat : Nat) (pipe : List Effects) (e : Effects) : Option Effects × List Effects :=
  if (pipe ++ [e]).length < lat then (none, pipe ++ [e])
  else ((pipe ++ [e]).head?, (pipe ++ [e]).tail)

end Sys2Proof.Machine
end

