-- ==== Sys2Proof/Machine/Operands.lean ====
section
/-! DEFINITION. What a frame decode computes from its operands: sign extension, the three unit scalings, the magnitude and
its compensation (spec/40_frame_decoder.md R57 to R64); and the floor clamp of a threshold write
(spec/41_kick_detector.md R73). -/

namespace Sys2Proof.Machine

/-- `sext_16`: the two's-complement reading of a field (R11, R58). -/
def rawValue (h : Half) : Int := h.toInt

/-- `r × range / 32768` as a binary32 value (R60 to R62). -/
def scaleRaw (range : Nat) (r : Int) : Word := ofRatio (decide (r < 0)) (r.natAbs * range) fullScale

/-- `ScaleAccel`, in g (R60). -/
def scaleAccel (r : Int) : Word := scaleRaw accRange r

/-- `ScaleGyro`, in °/s (R61). -/
def scaleGyro (r : Int) : Word := scaleRaw gyroRange r

/-- `ScaleAngle`, in degrees (R62). -/
def scaleAngle (r : Int) : Word := scaleRaw angRange r

/-- `Magnitude`, the reference `MAG_FN`: `sqrt32((ax² + ay²) + az²)`, each operation rounded (R9, R63).
DESIGN CHOICE (log entry 9). -/
def magnitude (ax ay az : Word) : Word :=
  sqrt32 (add32 (add32 (mul32 ax ax) (mul32 ay ay)) (mul32 az az))

/-- `Compensate`: `max(0, mag - BASELINE)`, never -0 (R64). -/
def compensate (mag : Word) : Word :=
  if gt32 (sub32 mag baseline) posZero then sub32 mag baseline else posZero

/-- `DecodeFrame`: the sample of a frame (R57). -/
def decodeFrame (f : RawFrame) : Sample :=
  let ax := scaleAccel (rawValue f.ax)
  let ay := scaleAccel (rawValue f.ay)
  let az := scaleAccel (rawValue f.az)
  { ax := ax
    ay := ay
    az := az
    wx := scaleGyro (rawValue f.wx)
    wy := scaleGyro (rawValue f.wy)
    wz := scaleGyro (rawValue f.wz)
    roll := scaleAngle (rawValue f.roll)
    pitch := scaleAngle (rawValue f.pitch)
    yaw := scaleAngle (rawValue f.yaw)
    mag := magnitude ax ay az
    comp := compensate (magnitude ax ay az) }

/-- `Clamp(p, FLOOR)`: a pattern at or above the floor is stored bit for bit; every other one, NaN included, stores the
floor (R73). -/
def clampFloor (p floor : Word) : Word := if ge32 p floor then p else floor

end Sys2Proof.Machine
end

