-- ==== Sys2Proof/Machine/State.lean ====
section
/-! DEFINITION. The state of the block (spec/10_state.md R15 to R28), its reset value, and the ways a step can stop. -/

namespace Sys2Proof.Machine

/-- A fault. The block raises none: no operation, in any state, with any operand, traps, faults or reports an error
(R89), so this type has no constructor. -/
inductive Fault
deriving DecidableEq, Repr

/-- Why a step has no next state. -/
inductive Refusal where
  /-- Raised by an arm of `exec` for an operation that has no meaning yet; none is left. Safe: the model stops. -/
  | notModelled (mnemonic : String)
  /-- Raised by every operation but RESET while no RESET has been performed since power-on: every state element is then
  unspecified, and the spec has the model refuse every operation (R27). Safe: the model stops. -/
  | beforeFirstReset
  /-- Raised by PROCESS alone, when it is run on its own with a NaN or an infinity, as R82 demands; the block never does
  so. Safe: the model stops. -/
  | nonFiniteInput
deriving DecidableEq, Repr

/-- The state of the block at the start of a cycle. -/
structure State where
  /-- The frame window `W`, oldest byte first (R16). -/
  window : List Byte
  /-- The detector mode: true is Armed (R18). -/
  armed : Bool
  /-- Threshold register 0, the trigger edge (R19). -/
  upper : Word
  /-- Threshold register 1, the re-arm edge (R19). -/
  lower : Word
  /-- Output pipeline, input stage: the sample made by the last performed cycle, `emit Sample` of R13. DEDUCED,
  safe (log entry 10). -/
  cycleSample : Option Sample
  /-- Output pipeline, input stage: the intensity of the kick made by the last performed cycle, `emit Kick` of R13. -/
  cycleKick : Option Word
  /-- Output pipeline: the effects of earlier cycles that the ports have not shown, oldest first (R24). -/
  pipe : List Effects
  /-- The output registers, as the ports show them in the cycle about to be performed (R21, R22, R23). -/
  ports : PortOut
  /-- MODEL: the values the host will drive on the input ports (R20), the next cycle's first. DESIGN CHOICE,
  unsafe (log entry 1). -/
  inputs : List PortIn
  /-- MODEL: whether a RESET has been performed since power-on (R27). DEDUCED, safe (log entry 6). -/
  resetSeen : Bool
  /-- MODEL: how many free values have been drawn. DESIGN CHOICE (log entry 2). -/
  freeCount : Nat
deriving DecidableEq, Repr

/-- The effects of a cycle that performs RESET: no event, and the reset values (R26, R85). -/
def resetEffects : Effects where
  sample := none
  kick := none
  armed := true
  upper := upperDefault
  lower := lowerDefault

/-- The state right after a RESET cycle of a block whose output latency is `lat` (R26). The host drives nothing yet (log
entry 1, DESIGN CHOICE), a RESET has been seen (log entry 6), and one presentation has drawn its free values (log entry 2,
DESIGN CHOICE). -/
def State.resetAt (lat : Nat) : State where
  window := []
  armed := true
  upper := upperDefault
  lower := lowerDefault
  cycleSample := none
  cycleKick := none
  pipe := (clockPipe lat [] resetEffects).2
  ports := present (clockPipe lat [] resetEffects).1 0
  inputs := []
  resetSeen := true
  freeCount := freePerCycle

/-- The state right after a RESET cycle (R26). -/
def State.reset : State := State.resetAt Config.decLatency

end Sys2Proof.Machine
end

