-- ==== Sys2Proof/Machine/Ops.lean ====
section
/-! DEFINITION. The named operations over the state that the meanings share: the window, the threshold registers, the mode
bit, the events, and the clock edge that ends a cycle.

Taking an exception and returning from one do not stand here: the block has no trap mechanism, saves no state and has no
return operation (spec/60_exceptions.md R89, R91). -/

namespace Sys2Proof.Machine

/-- The outcome type of every meaning. -/
abbrev Result := Host.Outcome State Fault Refusal

/-- Every operation but RESET is refused before the first RESET (R27). -/
def afterReset (s t : State) : Result := if s.resetSeen then .next t else .refused .beforeFirstReset

/-- `W <- W ++ [b]` (R53). -/
def appendByte (s : State) (b : Byte) : State := { s with window := s.window ++ [b] }

/-- `W <- []` (R54, R55). -/
def clearWindow (s : State) : State := { s with window := [] }

/-- `W <- W[1..]` (R56). -/
def dropOldest (s : State) : State := { s with window := s.window.tail }

/-- `emit Sample(s)` (R13). -/
def emitSample (s : State) (smp : Sample) : State := { s with cycleSample := some smp }

/-- One detector evaluation of `v`: the new mode, and the kick if the trigger edge is crossed (R71). -/
def evaluate (s : State) (v : Word) : State :=
  { s with
    armed := armedAfter s.armed v s.upper s.lower
    cycleKick := (kickOf s.armed v s.upper).or s.cycleKick }

/-- A frame decode: the sample, its evaluation in the same cycle, and an empty window (R55). -/
def decodeAndEvaluate (s : State) (f : RawFrame) : State :=
  clearWindow (evaluate (emitSample s (decodeFrame f)) (decodeFrame f).comp)

/-- What the window test selects, performed (R53): a frame decode, a skip, or nothing while the window is not full. -/
def windowTest (s : State) : State :=
  match decodeWindow s.window with
  | .ok (.frameDecode f) => decodeAndEvaluate s f
  | .ok (.windowSkip _ _) => dropOldest s
  | _ => s

/-- The acceptance of one byte, with the window test it leads to (R53). -/
def acceptByte (s : State) (b : Byte) : State := windowTest (appendByte s b)

/-- `upper <- Clamp(p, UPPER_FLOOR)` (R74). -/
def writeUpper (s : State) (p : Word) : State := { s with upper := clampFloor p upperFloor }

/-- `lower <- Clamp(p, LOWER_FLOOR)` (R75). -/
def writeLower (s : State) (p : Word) : State := { s with lower := clampFloor p lowerFloor }

/-- `armed <- 1` (R77). -/
def setArmed (s : State) : State := { s with armed := true }

/-- The hardware reset: every state element to its reset value, and every effect not yet shown cancelled (R26, R99). -/
def hardReset (s : State) : State :=
  { s with
    window := []
    armed := true
    upper := upperDefault
    lower := lowerDefault
    cycleSample := none
    cycleKick := none
    pipe := []
    resetSeen := true }

/-- The ports as the next rising edge samples them: the host's next values, or all 0 when it drives none.
DESIGN CHOICE, unsafe (log entry 1). -/
def nextPorts (s : State) : PortIn := s.inputs.headD (portsOf 0#6)

/-- The start of a cycle: its port values are taken, and it has made no event yet. -/
def beginCycle (s : State) : State :=
  { s with inputs := s.inputs.tail, cycleSample := none, cycleKick := none }

/-- What the ports will show of the cycle that ends in `s` (R85). -/
def cycleEffects (s : State) : Effects where
  sample := s.cycleSample
  kick := s.cycleKick
  armed := s.armed
  upper := s.upper
  lower := s.lower

/-- The clock edge that ends a cycle of a block with output latency `lat`: the output pipeline advances and loads the
output registers (R85). -/
def endCycle (lat : Nat) (s : State) : State :=
  { s with
    pipe := (clockPipe lat s.pipe (cycleEffects s)).2
    ports := present (clockPipe lat s.pipe (cycleEffects s)).1 s.freeCount
    freeCount := s.freeCount + freePerCycle }

end Sys2Proof.Machine
end

