-- ==== Sys2Proof/Machine/Control.lean ====
section
/-! DEFINITION. The two operations that stand alone in a cycle: RESET (spec/70_reset_and_hazards.md R99) and IDLE
(spec/42_cycle_step.md R83). -/

namespace Sys2Proof.Machine

/-- RESET: the global hardware reset (R99), the one operation performed in every state (R27). -/
def execReset (s : State) : Result := .next (hardReset s)

/-- IDLE: no operation (R83). -/
def execIdle (s : State) : Result := afterReset s s

end Sys2Proof.Machine
end

