-- ==== Sys2Proof/Machine/FrameDecoder.lean ====
section
/-! DEFINITION. The frame decoder family: BYTE, BYTE_LAST, FRAME_DECODE, WINDOW_SKIP (spec/40_frame_decoder.md). -/

namespace Sys2Proof.Machine

/-- BYTE: accept one byte that is not the last of its buffer (R53). -/
def execByte (b : Byte) (s : State) : Result := afterReset s (acceptByte s b)

/-- BYTE_LAST: accept the last byte of a buffer, then discard what is left of the buffer (R54). -/
def execByteLast (b : Byte) (s : State) : Result := afterReset s (clearWindow (acceptByte s b))

/-- FRAME_DECODE: the frame `f` of the window gives a sample, is evaluated, and leaves the window empty (R55). -/
def execFrameDecode (f : RawFrame) (s : State) : Result := afterReset s (decodeAndEvaluate s f)

/-- WINDOW_SKIP: the oldest byte of the window is dropped (R56). Its two operand bytes only select it. DESIGN CHOICE (log
entry 7). -/
def execWindowSkip (_w0 _w1 : Byte) (s : State) : Result := afterReset s (dropOldest s)

end Sys2Proof.Machine
end

