-- ==== Sys2Proof/Machine/KickDetector.lean ====
section
/-! DEFINITION. The kick detector family: PROCESS, SET_UPPER, SET_LOWER, SET_THRESHOLDS, REARM
(spec/41_kick_detector.md). -/

namespace Sys2Proof.Machine

/-- PROCESS: evaluate one compensated magnitude (R71). On its own, with a free operand, it refuses a NaN or an infinity
(R82); a frame decode never gives it one. -/
def execProcess (v : Word) (s : State) : Result :=
  if isFinite v then afterReset s (evaluate s v) else .refused .nonFiniteInput

/-- SET_UPPER: a clamped write of `upper` (R74). -/
def execSetUpper (p : Word) (s : State) : Result := afterReset s (writeUpper s p)

/-- SET_LOWER: a clamped write of `lower` (R75). -/
def execSetLower (p : Word) (s : State) : Result := afterReset s (writeLower s p)

/-- SET_THRESHOLDS: both clamped writes, as one (R76). -/
def execSetThresholds (pu pl : Word) (s : State) : Result := afterReset s (writeLower (writeUpper s pu) pl)

/-- REARM: the detector is Armed from the next cycle on (R77). -/
def execRearm (s : State) : Result := afterReset s (setArmed s)

end Sys2Proof.Machine
end

