-- ==== Sys2Proof/Machine/Dispatch.lean ====
section
/-! DEFINITION. One arm per operation: each a direct call of its meaning. -/

namespace Sys2Proof.Machine

def exec (i : Instr) (s : State) : Host.Outcome State Fault Refusal :=
  match i with
  | .reset => Sys2Proof.Machine.execReset s
  | .idle => Sys2Proof.Machine.execIdle s
  | .byte b => Sys2Proof.Machine.execByte b s
  | .byteLast b => Sys2Proof.Machine.execByteLast b s
  | .setUpper p => Sys2Proof.Machine.execSetUpper p s
  | .setLower p => Sys2Proof.Machine.execSetLower p s
  | .setThresholds pu pl => Sys2Proof.Machine.execSetThresholds pu pl s
  | .rearm => Sys2Proof.Machine.execRearm s
  | .frameDecode f => Sys2Proof.Machine.execFrameDecode f s
  | .windowSkip w0 w1 => Sys2Proof.Machine.execWindowSkip w0 w1 s
  | .process v => Sys2Proof.Machine.execProcess v s

end Sys2Proof.Machine
end

