-- ==== Sys2Proof/Machine/Cycle.lean ====
section
/-! DEFINITION. The composition of one cycle (spec/42_cycle_step.md R84), and how a table word is put before the block. -/

namespace Sys2Proof.Machine

/-- The operations of a cycle, one after another; the first that has no next state ends the cycle. -/
def execAll : List Instr → State → Result
  | [], s => .next s
  | i :: rest, s =>
    match exec i s with
    | .next t => execAll rest t
    | .fault r => .fault r
    | .refused r => .refused r

/-- One cycle of a block whose output latency is `lat` (R8): the ports are sampled, the operations they select are
performed in R84's order, and the clock edge moves the output pipeline. -/
def cycle (lat : Nat) (s : State) : Result :=
  match execAll (decodePorts (nextPorts s)) (beginCycle s) with
  | .next t => .next (endCycle lat t)
  | .fault r => .fault r
  | .refused r => .refused r

/-- The state with `p` driven on the input ports in the next cycle. -/
def driveNext (s : State) (p : PortIn) : State := { s with inputs := p :: s.inputs.tail }

/-- The state in which the next cycle's window test reads the window `w`: all but its last byte are in the window, and the
next cycle is a BYTE of the last one. DESIGN CHOICE (log entry 4). -/
def fillWindow (s : State) (w : List Byte) : State :=
  driveNext { s with window := w.dropLast }
    { portsOf rowByte.value with inData := w.getLastD 0#8 }

/-- The state with a code placed where the next cycle reads it. -/
def placeCode (s : State) : Code → State
  | .ports p => driveNext s p
  | .window w => fillWindow s w

end Sys2Proof.Machine
end

