-- ==== Sys2Proof/Machine/Step.lean ====
section
/-! DEFINITION. One step of the machine: one clock cycle of a block with the implementation's output latency. -/

namespace Sys2Proof.Machine

/-- One clock cycle (R84, R85). -/
def step (s : State) : Host.Outcome State Fault Refusal := cycle Config.decLatency s

/-- The state whose next cycle performs the operation of the table word `w` of `nbits` bits: a control vector on the
input ports, or a full window. DESIGN CHOICE (log entry 4). -/
def State.withFetchWord (s : State) (nbits w : Nat) : State :=
  match tableCode nbits w with
  | some c => placeCode s c
  | none => s

end Sys2Proof.Machine
end

