-- ==== Sys2Proof/Safety.lean ====
section
/-! DEFINITION. What the statements speak of: values of binary32 patterns, legal states, runs of several cycles, the
source's buffer scan, and the transaction level. -/

namespace Sys2Proof.Machine

/-! ### Values (spec/00_scope.md R12) -/

/-- `F32(p)` of a finite pattern, as a rational number. -/
def valueOf (p : Word) : ℚ := units p / 2 ^ 149

/-- `p` is a finite binary32 value nearest to `x`, and where two are equally near the one whose last bit is 0:
roundTiesToEven inside the finite range (R12). -/
def NearestEven (x : ℝ) (p : Word) : Prop :=
  isFinite p = true ∧ ∀ c : Word, isFinite c = true →
    |(valueOf p : ℝ) - x| ≤ |(valueOf c : ℝ) - x| ∧
    (|(valueOf c : ℝ) - x| = |(valueOf p : ℝ) - x| → valueOf c ≠ valueOf p → p.getLsbD 0 = false)

/-- The magnitude from which roundTiesToEven gives an infinity: half a step above the largest finite value. PRESUMED (IEEE
754; log entry 11). -/
def overflowBound : ℝ := 2 ^ 128 - 2 ^ 103

/-- `p` is `rnd32(x)` (R12). That a result from `overflowBound` on is an infinity is IEEE 754's rule (log entry 11). -/
def RoundsTo (x : ℝ) (p : Word) : Prop :=
  (|x| < overflowBound → NearestEven x p) ∧
  (overflowBound ≤ x → p = infinity false) ∧
  (x ≤ -overflowBound → p = infinity true)

/-! ### Legal values and states -/

/-- A value the register `upper` may hold (R19). -/
abbrev legalUpper (p : Word) : Prop := ge32 p upperFloor = true

/-- A value the register `lower` may hold (R19). -/
abbrev legalLower (p : Word) : Prop := ge32 p lowerFloor = true

/-- An intensity a kick may have: 1 + 2^-23 to 2.0 (R78). -/
abbrev kickInRange (i : Word) : Prop := 0x3F800001 ≤ i.toNat ∧ i.toNat ≤ 0x40000000

/-- +0.0, or a normal finite number of either sign (R70). -/
abbrev zeroOrNormal (p : Word) : Prop := p = posZero ∨ (expField p ≠ 0 ∧ expField p ≠ 255)

/-- The range R70 gives the fields of a sample: each +0.0 or normal, and the compensated magnitude +0.0 or from 2^-22 to
25.6228122711181640625. -/
abbrev regularSample (x : Sample) : Prop :=
  zeroOrNormal x.ax ∧ zeroOrNormal x.ay ∧ zeroOrNormal x.az ∧ zeroOrNormal x.wx ∧ zeroOrNormal x.wy ∧
  zeroOrNormal x.wz ∧ zeroOrNormal x.roll ∧ zeroOrNormal x.pitch ∧ zeroOrNormal x.yaw ∧ zeroOrNormal x.mag ∧
  (x.comp = posZero ∨ (0x34800000 ≤ x.comp.toNat ∧ x.comp.toNat ≤ 0x41CCFB85))

/-- A kick comes with a sample (R86). -/
abbrev kickHasSample (sample : Option Sample) (kick : Option Word) : Prop :=
  kick.isSome = true → sample.isSome = true

/-- What holds between cycles of a block that has been reset: the window is short of a frame (R16), the registers hold
legal values (R19), the pipeline holds fewer than `DEC_LATENCY` cycles' effects, each with legal thresholds (R24), and no
kick stands without its sample (R86). -/
structure Legal (s : State) : Prop where
  windowShort : s.window.length < frameLen
  upperLegal : legalUpper s.upper
  lowerLegal : legalLower s.lower
  pipeShort : s.pipe.length < Config.decLatency
  pipeLegal : ∀ e ∈ s.pipe, legalUpper e.upper ∧ legalLower e.lower
  stageKick : kickHasSample s.cycleSample s.cycleKick
  pipeKick : ∀ e ∈ s.pipe, kickHasSample e.sample e.kick
  portKick : s.ports.kickValid = true → s.ports.smpValid = true

/-- The invariant of every step: a block that has been reset is in a legal state. Before the first RESET nothing is known
(R27). -/
def Inv (s : State) : Prop := s.resetSeen = true → Legal s

/-- Every sample and kick the block holds is in its range (R70, R78). -/
structure RangesKept (s : State) : Prop where
  stageSample : ∀ x ∈ s.cycleSample, regularSample x
  stageKick : ∀ i ∈ s.cycleKick, kickInRange i
  pipeSample : ∀ e ∈ s.pipe, ∀ x ∈ e.sample, regularSample x
  pipeKick : ∀ e ∈ s.pipe, ∀ i ∈ e.kick, kickInRange i
  portSample : s.ports.smpValid = true → regularSample s.ports.smp
  portKick : s.ports.kickValid = true → kickInRange s.ports.kickIntensity

/-! ### Runs -/

/-- `n` cycles, one after another, each completing. -/
inductive Runs : Nat → State → State → Prop where
  | zero (s : State) : Runs 0 s s
  | succ {n : Nat} {s t u : State} : step s = .next t → Runs n t u → Runs (n + 1) s u

/-- `n` cycles of a block whose output latency is `lat`, one after another, each completing (R8). -/
inductive RunsAt (lat : Nat) : Nat → State → State → Prop where
  | zero (s : State) : RunsAt lat 0 s s
  | succ {n : Nat} {s t u : State} : cycle lat s = .next t → RunsAt lat n t u → RunsAt lat (n + 1) s u

/-- The samples the first `n` cycles make, in order. -/
def samplesIn : Nat → State → List Sample
  | 0, _ => []
  | n + 1, s =>
    match step s with
    | .next t => t.cycleSample.toList ++ samplesIn n t
    | .fault _ => []
    | .refused _ => []

/-- The kicks the first `n` cycles make, in order. -/
def kicksIn : Nat → State → List Word
  | 0, _ => []
  | n + 1, s =>
    match step s with
    | .next t => t.cycleKick.toList ++ kicksIn n t
    | .fault _ => []
    | .refused _ => []

/-- The port values of a cycle that performs BYTE `b` alone (R52). -/
def bytePorts (b : Byte) : PortIn := { portsOf rowByte.value with inData := b }

/-- The port values of a cycle that performs BYTE_LAST `b` alone (R52). -/
def lastPorts (b : Byte) : PortIn := { portsOf rowByteLast.value with inData := b }

/-- `BUF`: one buffer, one byte per cycle, the last byte marked (R52). -/
def bufferPorts : List Byte → List PortIn
  | [] => []
  | [b] => [lastPorts b]
  | b :: rest => bytePorts b :: bufferPorts rest

/-- The bytes that a list of port values presents, one for each cycle with `in_valid` 1 (R20). -/
def acceptedBytes (ps : List PortIn) : List Byte := (ps.filter PortIn.inValid).map PortIn.inData

/-- `Delivery buffer ps`: the cycles driven by `ps` deliver one buffer. No cycle has `rst` 1. A cycle without a byte may
stand anywhere before the last byte (R83), the last byte alone is marked (R102), and REARM and threshold writes may share any
cycle (R84). -/
inductive Delivery : List Byte → List PortIn → Prop where
  | wait {p : PortIn} {buffer : List Byte} {ps : List PortIn} :
    p.rst = false → p.inValid = false → Delivery buffer ps → Delivery buffer (p :: ps)
  | byte {p : PortIn} {buffer : List Byte} {ps : List PortIn} :
    p.rst = false → p.inValid = true → p.inLast = false → Delivery buffer ps → Delivery (p.inData :: buffer) (p :: ps)
  | last {p : PortIn} :
    p.rst = false → p.inValid = true → p.inLast = true → Delivery [p.inData] [p]

/-- The source's scan of a buffer (R65), on the bytes from the scan position on: test, then advance by 20 or by 1, until
fewer than 20 bytes remain. `fuel` bounds the number of tests. -/
def scanFrom : Nat → List Byte → List Sample
  | 0, _ => []
  | fuel + 1, rest =>
    if rest.length < 20 then []
    else if rest.getD 0 0#8 = 0x55#8 ∧ rest.getD 1 0#8 = 0x61#8 then
      decodeFrame (frameOf (rest.take 20)) :: scanFrom fuel (rest.drop 20)
    else scanFrom fuel (rest.drop 1)

/-- `Scan(B)` (R65): a buffer of `n` bytes is tested at fewer than `n` positions. -/
def scan (buffer : List Byte) : List Sample := scanFrom buffer.length buffer

/-- The bytes from the scan position on once fewer than 20 of them remain (R65). -/
def restFrom : Nat → List Byte → List Byte
  | 0, rest => rest
  | fuel + 1, rest =>
    if rest.length < 20 then rest
    else if rest.getD 0 0#8 = 0x55#8 ∧ rest.getD 1 0#8 = 0x61#8 then restFrom fuel (rest.drop 20)
    else restFrom fuel (rest.drop 1)

/-- `B[i ..]` for the scan position `i` that `Scan(B)` ends at (R65). -/
def scanRest (buffer : List Byte) : List Byte := restFrom buffer.length buffer

/-! ### The transaction level (R6, R88) -/

/-- The architectural state that operations read and write, without the output side. -/
abbrev coreState (s : State) : List Byte × Bool × Word × Word := (s.window, s.armed, s.upper, s.lower)

/-- The operations that the port values of the next `n` cycles select, in the order of R84. -/
def traceOf : Nat → List PortIn → List Instr
  | 0, _ => []
  | n + 1, ps => decodePorts (ps.headD (portsOf 0#6)) ++ traceOf n ps.tail

/-- The state before an operation whose events are to be read off on their own. -/
def withoutEvents (s : State) : State := { s with cycleSample := none, cycleKick := none }

/-- The state after a list of operations, applied one after another, if each completes. -/
def stateAfter : List Instr → State → Option State
  | [], s => some s
  | i :: rest, s =>
    match exec i s with
    | .next t => stateAfter rest t
    | .fault _ => none
    | .refused _ => none

/-- The events a list of operations makes, applied one after another: each operation's sample, if any, and kick, if any. -/
def eventsOf : List Instr → State → List Sample × List Word
  | [], _ => ([], [])
  | i :: rest, s =>
    match exec i (withoutEvents s) with
    | .next t => (t.cycleSample.toList ++ (eventsOf rest t).1, t.cycleKick.toList ++ (eventsOf rest t).2)
    | .fault _ => ([], [])
    | .refused _ => ([], [])

end Sys2Proof.Machine
end

