-- ==== Sys2Proof/Certificates/Slice0/Obligations.lean ====
section
/-! DEFINITION. The statements for the provers. Each docstring names the rule of spec/ it formalises or rests on. -/

open Sys2Proof Sys2Proof.Machine

/-! ### The operations -/

/-- R99, one operation: RESET, in every state, loads the reset values and cancels every effect not yet shown; the ports,
the host's inputs and the count of free values stay. -/
def Obligations.ResetLoadsResetValues : Prop :=
  ∀ s : State, exec .reset s = .next { s with
    window := []
    armed := true
    upper := 0x3FC00000#32
    lower := 0x3DCCCCCD#32
    cycleSample := none
    cycleKick := none
    pipe := []
    resetSeen := true }

/-- R99 and R85, the cycle, for every output latency: with `rst` 1 it performs RESET alone, whatever the other inputs are and
whatever the state was, and ends in the reset state but for the free values and the inputs still to come. Both strobes are 0;
with latency 1 the status ports show the reset values at once. -/
def Obligations.ResetCycleDominates : Prop :=
  (∀ (lat : Nat) (s : State), (nextPorts s).rst = true → ∃ t, cycle lat s = .next t ∧
    t.window = [] ∧ t.armed = true ∧ t.upper = 0x3FC00000#32 ∧ t.lower = 0x3DCCCCCD#32 ∧
    t.cycleSample = none ∧ t.cycleKick = none ∧ t.pipe = (State.resetAt lat).pipe ∧ t.resetSeen = true ∧
    t.ports.smpValid = false ∧ t.ports.kickValid = false ∧ t.inputs = s.inputs.tail ∧
    (lat = 1 → t.ports.armedO = true ∧ t.ports.upperQ = 0x3FC00000#32 ∧ t.ports.lowerQ = 0x3DCCCCCD#32)) ∧
  (∀ s : State, step s = cycle Config.decLatency s)

/-- R83: IDLE changes nothing, and a cycle of IDLE alone leaves the window, the mode and the thresholds and makes no
event. -/
def Obligations.IdleChangesNothing : Prop :=
  ∀ s : State, s.resetSeen = true →
    exec .idle s = .next s ∧
    (decodePorts (nextPorts s) = [.idle] → ∃ t, step s = .next t ∧ coreState t = coreState s ∧
      t.cycleSample = none ∧ t.cycleKick = none)

/-- R53: BYTE appends its byte. With 20 bytes present, a window that begins 55 61 is decoded and emptied and any other
loses its oldest byte; with another number of bytes nothing else happens. -/
def Obligations.ByteAppendsThenTests : Prop :=
  ∀ (b : Byte) (s : State), s.resetSeen = true →
    ((s.window ++ [b]).length ≠ 20 → exec (.byte b) s = .next { s with window := s.window ++ [b] }) ∧
    ((s.window ++ [b]).length = 20 →
      (s.window ++ [b]).getD 0 0#8 = 0x55#8 ∧ (s.window ++ [b]).getD 1 0#8 = 0x61#8 →
      exec (.byte b) s = .next { s with
        window := []
        cycleSample := some (decodeFrame (frameOf (s.window ++ [b])))
        armed := armedAfter s.armed (decodeFrame (frameOf (s.window ++ [b]))).comp s.upper s.lower
        cycleKick := (kickOf s.armed (decodeFrame (frameOf (s.window ++ [b]))).comp s.upper).or s.cycleKick }) ∧
    ((s.window ++ [b]).length = 20 →
      ¬ ((s.window ++ [b]).getD 0 0#8 = 0x55#8 ∧ (s.window ++ [b]).getD 1 0#8 = 0x61#8) →
      exec (.byte b) s = .next { s with window := (s.window ++ [b]).tail })

/-- R54: BYTE_LAST does what BYTE does and then empties the window. -/
def Obligations.ByteLastEmptiesWindow : Prop :=
  ∀ (b : Byte) (s : State), s.resetSeen = true →
    ∃ t, exec (.byte b) s = .next t ∧ exec (.byteLast b) s = .next { t with window := [] }

/-- R55: FRAME_DECODE emits the frame's sample, evaluates its compensated magnitude against the mode and thresholds it
finds, and empties the window; nothing else changes. That it takes its operand for the frame whatever the window holds is the
model's choice (log entry 7). -/
def Obligations.FrameDecodeEmitsAndEvaluates : Prop :=
  ∀ (f : RawFrame) (s : State), s.resetSeen = true → exec (.frameDecode f) s = .next { s with
    window := []
    cycleSample := some (decodeFrame f)
    armed :=
      if s.armed = true ∧ gt32 (decodeFrame f).comp s.upper = true then false
      else if s.armed = false ∧ lt32 (decodeFrame f).comp s.lower = true then true
      else s.armed
    cycleKick :=
      if s.armed = true ∧ gt32 (decodeFrame f).comp s.upper = true then
        some (intensity (decodeFrame f).comp s.upper)
      else s.cycleKick }

/-- R55 and R82: the evaluation that FRAME_DECODE issues is PROCESS of its compensated magnitude, which PROCESS never
refuses. -/
def Obligations.FrameDecodeIssuesProcess : Prop :=
  ∀ (f : RawFrame) (s : State), s.resetSeen = true →
    ∃ u, exec (.process (decodeFrame f).comp) { s with cycleSample := some (decodeFrame f) } = .next u ∧
      exec (.frameDecode f) s = .next { u with window := [] }

/-- R56: WINDOW_SKIP drops the oldest byte of the window and changes nothing else. That it does so whatever its operand bytes
and the window are is the model's choice (log entry 7). -/
def Obligations.WindowSkipDropsOldest : Prop :=
  ∀ (w0 w1 : Byte) (s : State), s.resetSeen = true →
    exec (.windowSkip w0 w1) s = .next { s with window := s.window.drop 1 }

/-- R71 and R72: the three branches of PROCESS in their order, with the intensity `min(v / U, 2.0)` of a kick. -/
def Obligations.ProcessHasThreeBranches : Prop :=
  ∀ (v : Word) (s : State), s.resetSeen = true → isFinite v = true →
    (s.armed = true → gt32 v s.upper = true → exec (.process v) s = .next { s with
      armed := false
      cycleKick := some (if lt32 (div32 v s.upper) 0x40000000#32 = true then div32 v s.upper else 0x40000000#32) }) ∧
    (s.armed = false → lt32 v s.lower = true → exec (.process v) s = .next { s with armed := true }) ∧
    (¬ (s.armed = true ∧ gt32 v s.upper = true) → ¬ (s.armed = false ∧ lt32 v s.lower = true) →
      exec (.process v) s = .next s)

/-- R82: no frame gives the detector a NaN or an infinity, and PROCESS run on its own with one refuses. -/
def Obligations.NonFiniteInputCannotOccur : Prop :=
  (∀ f : RawFrame, isFinite (decodeFrame f).comp = true) ∧
  (∀ (v : Word) (s : State), isFinite v = false → exec (.process v) s = .refused .nonFiniteInput)

/-- R74: SET_UPPER stores the clamped pattern in `upper` and changes nothing else. -/
def Obligations.SetUpperStoresClamped : Prop :=
  ∀ (p : Word) (s : State), s.resetSeen = true →
    exec (.setUpper p) s = .next { s with upper := if ge32 p 0x3DCCCCCD#32 = true then p else 0x3DCCCCCD#32 }

/-- R75: SET_LOWER stores the clamped pattern in `lower` and changes nothing else. -/
def Obligations.SetLowerStoresClamped : Prop :=
  ∀ (p : Word) (s : State), s.resetSeen = true →
    exec (.setLower p) s = .next { s with lower := if ge32 p 0x3C23D70A#32 = true then p else 0x3C23D70A#32 }

/-- R76: SET_THRESHOLDS stores both clamped patterns, each clamped on its own, and changes nothing else. -/
def Obligations.SetThresholdsStoresBothClamped : Prop :=
  ∀ (pu pl : Word) (s : State), s.resetSeen = true →
    exec (.setThresholds pu pl) s = .next { s with
      upper := if ge32 pu 0x3DCCCCCD#32 = true then pu else 0x3DCCCCCD#32
      lower := if ge32 pl 0x3C23D70A#32 = true then pl else 0x3C23D70A#32 }

/-- R77: REARM makes the detector Armed and changes nothing else; while Armed it changes nothing. -/
def Obligations.RearmArmsOnly : Prop :=
  ∀ s : State, s.resetSeen = true →
    exec .rearm s = .next { s with armed := true } ∧ (s.armed = true → exec .rearm s = .next s)

/-- R27: before the first RESET every operation but RESET is refused, and so is every cycle but a RESET cycle. -/
def Obligations.NothingRunsBeforeFirstReset : Prop :=
  ∀ s : State, s.resetSeen = false →
    (∀ i : Instr, i.wellFormed = true → i ≠ .reset → exec i s = .refused .beforeFirstReset) ∧
    ((nextPorts s).rst = false → step s = .refused .beforeFirstReset)

/-- R26: the values of every state element right after RESET, for every output latency; the machine's reset state is that of
its own latency. Both strobes are 0; with latency 1 the status ports already show the reset values. -/
def Obligations.ResetStateHasResetValues : Prop :=
  State.reset = State.resetAt Config.decLatency ∧
  (∀ lat : Nat,
    (State.resetAt lat).window = [] ∧ (State.resetAt lat).armed = true ∧ (State.resetAt lat).upper = 0x3FC00000#32 ∧
    (State.resetAt lat).lower = 0x3DCCCCCD#32 ∧ (State.resetAt lat).cycleSample = none ∧
    (State.resetAt lat).cycleKick = none ∧ (∀ e ∈ (State.resetAt lat).pipe, e.sample = none ∧ e.kick = none) ∧
    (State.resetAt lat).ports.smpValid = false ∧ (State.resetAt lat).ports.kickValid = false) ∧
  (State.resetAt 1).pipe = [] ∧ (State.resetAt 1).ports.armedO = true ∧
  (State.resetAt 1).ports.upperQ = 0x3FC00000#32 ∧ (State.resetAt 1).ports.lowerQ = 0x3DCCCCCD#32

/-! ### Encodings -/

/-- R47: what each control vector selects. RESET and IDLE stand alone; otherwise the cycle performs at most one operation
of each group, in the order byte, rearm, config. -/
def Obligations.ControlVectorSelectsOperations : Prop :=
  ∀ p : PortIn,
    (p.rst = true → decodePorts p = [.reset]) ∧
    (p.rst = false → p.inValid = false → p.rearm = false → p.cfgUpperWe = false → p.cfgLowerWe = false →
      decodePorts p = [.idle]) ∧
    (p.rst = false → (p.inValid = true ∨ p.rearm = true ∨ p.cfgUpperWe = true ∨ p.cfgLowerWe = true) →
      decodePorts p =
        (match p.inValid, p.inLast with
          | true, false => [.byte p.inData]
          | true, true => [.byteLast p.inData]
          | false, _ => []) ++
        (if p.rearm = true then [.rearm] else []) ++
        (match p.cfgUpperWe, p.cfgLowerWe with
          | true, true => [.setThresholds p.cfgUpperWdata p.cfgLowerWdata]
          | true, false => [.setUpper p.cfgUpperWdata]
          | false, true => [.setLower p.cfgLowerWdata]
          | false, false => []))

/-- R49: `in_last` without `in_valid` is ignored, an operand whose strobe is 0 is ignored, and no encoding is without a
meaning: after a RESET every value of the ports gives a next state. -/
def Obligations.IgnoredInputsChangeNothing : Prop :=
  (∀ (p : PortIn) (x : Bool), p.inValid = false → decodePorts { p with inLast := x } = decodePorts p) ∧
  (∀ (p : PortIn) (x : Byte), p.inValid = false → decodePorts { p with inData := x } = decodePorts p) ∧
  (∀ (p : PortIn) (x : Word), p.cfgUpperWe = false → decodePorts { p with cfgUpperWdata := x } = decodePorts p) ∧
  (∀ (p : PortIn) (x : Word), p.cfgLowerWe = false → decodePorts { p with cfgLowerWdata := x } = decodePorts p) ∧
  (∀ (p : PortIn) (s : State), s.resetSeen = true → ∃ t, step (driveNext s p) = .next t)

/-- R45 and R50: of the windows of 20 bytes, exactly those that begin 55 61 are frames, whatever their other bytes are, and
every other is skipped by one byte; a window of any other length is not tested (R53). -/
def Obligations.HeaderAloneDecidesWindow : Prop :=
  ∀ w : List Byte,
    (w.length = 20 → w.getD 0 0#8 = 0x55#8 → w.getD 1 0#8 = 0x61#8 → ∃ f, decodeWindow w = .ok (.frameDecode f)) ∧
    (w.length = 20 → ¬ (w.getD 0 0#8 = 0x55#8 ∧ w.getD 1 0#8 = 0x61#8) →
      decodeWindow w = .ok (.windowSkip (w.getD 0 0#8) (w.getD 1 0#8))) ∧
    (w.length ≠ 20 → decodeWindow w = .error .windowNotFull)

/-- R43, R46, R47, R52: decoding the code of a well-formed operation gives the operation back, for every operand; PROCESS
alone has no code. -/
def Obligations.DecodeEncodeAgree : Prop :=
  (∀ (i : Instr) (c : Code), i.wellFormed = true → encode i = some c → decode c = .ok [i]) ∧
  (∀ i : Instr, encode i = none ↔ ∃ v, i = .process v)

/-- R43: a window that decodes to a frame is that frame's twenty bytes, so no bit of it is dropped. -/
def Obligations.FrameDecodingDropsNoBit : Prop :=
  ∀ (w : List Byte) (f : RawFrame), decodeWindow w = .ok (.frameDecode f) → frameBytes f = w

/-- R46, R47, R52: the line codes of the notation, and a frame written out byte by byte (vector N20), select what they stand
for. The numbering of a table word's bits is the model's choice (log entry 8). -/
def Obligations.WrittenOutCodesDecode : Prop :=
  decodeTableWord 8 0x20 = some .reset ∧ decodeTableWord 8 0x00 = some .idle ∧
  decodeTableWord 8 0x08 = some .idle ∧ decodeTableWord 8 0x10 = some (.byte 0x00#8) ∧
  decodeTableWord 8 0x18 = some (.byteLast 0x00#8) ∧ decodeTableWord 8 0x04 = some (.setUpper 0#32) ∧
  decodeTableWord 8 0x02 = some (.setLower 0#32) ∧ decodeTableWord 8 0x06 = some (.setThresholds 0#32 0#32) ∧
  decodeTableWord 8 0x01 = some .rearm ∧ decodeTableWord 8 0x30 = some .reset ∧
  decode (.window [0x55#8, 0x61#8, 0x01#8, 0x00#8, 0xFF#8, 0xFF#8, 0x00#8, 0x08#8, 0x01#8, 0x00#8, 0xFF#8, 0xFF#8,
      0xFF#8, 0x7F#8, 0x00#8, 0x40#8, 0x00#8, 0x80#8, 0xFF#8, 0x7F#8]) =
    .ok [.frameDecode ⟨0x0001#16, 0xFFFF#16, 0x0800#16, 0x0001#16, 0xFFFF#16, 0x7FFF#16, 0x4000#16, 0x8000#16,
      0x7FFF#16⟩] ∧
  decode (.window ([0x61#8, 0x55#8] ++ List.replicate 18 0x00#8)) = .ok [.windowSkip 0x61#8 0x55#8]

/-- R32 and R58: field `k` of a window is the two's-complement reading of `W[2+2k] + 256 * W[3+2k]`, in -32768..32767. -/
def Obligations.FieldsAreLittleEndianSigned : Prop :=
  ∀ (w : List Byte) (k : Nat), k < 9 →
    rawValue (fieldOf w k) =
      (if (w.getD (2 + 2 * k) 0#8).toNat + 256 * (w.getD (3 + 2 * k) 0#8).toNat < 32768 then
        ((w.getD (2 + 2 * k) 0#8).toNat + 256 * (w.getD (3 + 2 * k) 0#8).toNat : Int)
      else ((w.getD (2 + 2 * k) 0#8).toNat + 256 * (w.getD (3 + 2 * k) 0#8).toNat : Int) - 65536) ∧
    -32768 ≤ rawValue (fieldOf w k) ∧ rawValue (fieldOf w k) ≤ 32767

/-! ### Numbers -/

/-- R12: `add32` and `sub32` of finite operands are the exact sum and difference, rounded once to nearest, ties to even.
That a sum past the finite range is an infinity is IEEE 754's rule (log entry 11, PRESUMED). -/
def Obligations.AddSubCorrectlyRounded : Prop :=
  ∀ a b : Word, isFinite a = true → isFinite b = true →
    RoundsTo ((valueOf a + valueOf b : ℚ) : ℝ) (add32 a b) ∧
    RoundsTo ((valueOf a - valueOf b : ℚ) : ℝ) (sub32 a b)

/-- R12: `mul32` and `div32` of finite operands are the exact product and quotient, rounded once. That a result past
the finite range is an infinity is IEEE 754's rule (log entry 11, PRESUMED). -/
def Obligations.MulDivCorrectlyRounded : Prop :=
  ∀ a b : Word, isFinite a = true → isFinite b = true →
    RoundsTo ((valueOf a * valueOf b : ℚ) : ℝ) (mul32 a b) ∧
    (isZero b = false → RoundsTo ((valueOf a / valueOf b : ℚ) : ℝ) (div32 a b))

/-- R12: `sqrt32` of a finite value that is not negative, -0.0 included, is its exact root, rounded once. The overflow clauses
of `RoundsTo` (log entry 11, PRESUMED) do not apply to a root. -/
def Obligations.SqrtCorrectlyRounded : Prop :=
  ∀ a : Word, isFinite a = true → 0 ≤ valueOf a → RoundsTo (Real.sqrt (valueOf a : ℝ)) (sqrt32 a)

/-- R12: the comparisons of finite patterns are those of their values (so +0 equals -0), every comparison with a NaN is
false, and an infinity lies beyond every finite value on its side. -/
def Obligations.ComparisonsOrderValues : Prop :=
  (∀ a b : Word, isFinite a = true → isFinite b = true →
    (gt32 a b = true ↔ valueOf b < valueOf a) ∧ (lt32 a b = true ↔ valueOf a < valueOf b) ∧
    (ge32 a b = true ↔ valueOf b ≤ valueOf a)) ∧
  (∀ a b : Word, isNaN a = true ∨ isNaN b = true → gt32 a b = false ∧ lt32 a b = false ∧ ge32 a b = false) ∧
  (∀ a : Word, isFinite a = true →
    gt32 0x7F800000#32 a = true ∧ lt32 0xFF800000#32 a = true ∧ gt32 a 0x7F800000#32 = false)

/-- R60, R61, R62: for every 16-bit field the three scalings are exact, a zero field gives +0.0, and multiplying by the
range and then dividing by 32768, or multiplying by the quotient constant, gives the same bits. -/
def Obligations.ScalingsAreExact : Prop :=
  ∀ h : Half,
    let r := rawValue h
    let asFloat := ofRatio (decide (r < 0)) r.natAbs 1
    (isFinite (scaleAccel r) = true ∧ valueOf (scaleAccel r) = r * 16 / 32768 ∧
      scaleAccel r = div32 (mul32 asFloat 0x41800000#32) 0x47000000#32 ∧
      scaleAccel r = mul32 asFloat 0x3A000000#32) ∧
    (isFinite (scaleGyro r) = true ∧ valueOf (scaleGyro r) = r * 2000 / 32768 ∧
      scaleGyro r = div32 (mul32 asFloat 0x44FA0000#32) 0x47000000#32 ∧
      scaleGyro r = mul32 asFloat 0x3D7A0000#32) ∧
    (isFinite (scaleAngle r) = true ∧ valueOf (scaleAngle r) = r * 180 / 32768 ∧
      scaleAngle r = div32 (mul32 asFloat 0x43340000#32) 0x47000000#32 ∧
      scaleAngle r = mul32 asFloat 0x3BB40000#32) ∧
    (r = 0 → scaleAccel r = 0#32 ∧ scaleGyro r = 0#32 ∧ scaleAngle r = 0#32)

/-- R63: the magnitude is `sqrt32((ax² + ay²) + az²)` in that order with every operation rounded, as the rule's rounding
example (vector N19) shows. -/
def Obligations.MagnitudeRoundsLeftToRight : Prop :=
  (∀ ax ay az : Word,
    magnitude ax ay az = sqrt32 (add32 (add32 (mul32 ax ax) (mul32 ay ay)) (mul32 az az))) ∧
  mul32 0xC1074200#32 0xC1074200#32 = 0x428EED5A#32 ∧ mul32 0x417B5200#32 0x417B5200#32 = 0x4376B9E6#32 ∧
  mul32 0x414C4600#32 0x414C4600#32 = 0x4322FFA3#32 ∧
  magnitude (scaleAccel (-17313)) (scaleAccel 32169) (scaleAccel 26147) = 0x41AF7CF1#32

/-- R64: at or below the baseline the compensated magnitude is +0.0; above it, it is the rounded difference, which is
positive. So it is never negative and never -0.0. -/
def Obligations.CompensationIsNeverNegative : Prop :=
  ∀ mag : Word, isFinite mag = true →
    (valueOf mag ≤ valueOf 0x4005C28F#32 → compensate mag = 0x00000000#32) ∧
    (valueOf 0x4005C28F#32 < valueOf mag →
      compensate mag = sub32 mag 0x4005C28F#32 ∧ 0 < valueOf (compensate mag))

/-- R70: every field of every sample is +0.0 or a normal number, the compensated magnitude is +0.0 or from 2^-22 to
0x41CCFB85, and that bound is reached. -/
def Obligations.SampleFieldsAreRegular : Prop :=
  (∀ f : RawFrame, regularSample (decodeFrame f)) ∧
  (decodeFrame ⟨0x8000#16, 0x8000#16, 0x8000#16, 0#16, 0#16, 0#16, 0#16, 0#16, 0#16⟩).comp = 0x41CCFB85#32

/-- R57: the gyro and angle fields affect neither the detector nor the window. -/
def Obligations.OnlyAccelerationReachesDetector : Prop :=
  ∀ (f g : RawFrame) (s : State), f.ax = g.ax → f.ay = g.ay → f.az = g.az → s.resetSeen = true →
    ∃ t u, exec (.frameDecode f) s = .next t ∧ exec (.frameDecode g) s = .next u ∧
      { t with cycleSample := none } = { u with cycleSample := none }

/-! ### Thresholds and the detector -/

/-- R73: a pattern at or above the floor, +infinity included, is stored bit for bit; every NaN, every negative pattern, both
zeros, every subnormal and every finite value below the floor store the floor. So what is stored is always at or above the
floor. -/
def Obligations.ClampKeepsOrRaisesToFloor : Prop :=
  ∀ floor : Word, floor = 0x3DCCCCCD#32 ∨ floor = 0x3C23D70A#32 →
    (∀ p : Word, isFinite p = true → valueOf floor ≤ valueOf p → clampFloor p floor = p) ∧
    clampFloor 0x7F800000#32 floor = 0x7F800000#32 ∧
    (∀ p : Word, isNaN p = true → clampFloor p floor = floor) ∧
    (∀ p : Word, signBit p = true → clampFloor p floor = floor) ∧
    (∀ p : Word, expField p = 0 → clampFloor p floor = floor) ∧
    (∀ p : Word, isFinite p = true → valueOf p < valueOf floor → clampFloor p floor = floor) ∧
    (∀ p : Word, ge32 (clampFloor p floor) floor = true)

/-- R78: the intensity of a kick, with a legal upper threshold, lies from 1 + 2^-23 to 2.0; the lower end is reached. -/
def Obligations.IntensityIsBounded : Prop :=
  (∀ v upper : Word, isFinite v = true → legalUpper upper → gt32 v upper = true →
    0x3F800001 ≤ (intensity v upper).toNat ∧ (intensity v upper).toNat ≤ 0x40000000) ∧
  intensity 0x3FC00AE2#32 0x3FC00AE1#32 = 0x3F800001#32

/-- R79, one cycle: a kick needs an Armed detector and a sample, and leaves the detector Disarmed unless the same cycle
performs REARM; a Disarmed detector stays Disarmed and makes no kick unless the cycle performs RESET or REARM or has a
sample below `lower`. -/
def Obligations.KickNeedsArmedDetector : Prop :=
  ∀ s t : State, step s = .next t →
    (t.cycleKick.isSome = true →
      s.armed = true ∧ t.cycleSample.isSome = true ∧ t.armed = (nextPorts s).rearm) ∧
    (s.armed = false → (nextPorts s).rst = false → (nextPorts s).rearm = false →
      (∀ x ∈ t.cycleSample, lt32 x.comp s.lower = false) → t.armed = false ∧ t.cycleKick = none)

/-- R79, a run: from Disarmed, no kick occurs until a sample below `lower`, a REARM or a RESET. -/
def Obligations.DisarmedDetectorStaysSilent : Prop :=
  ∀ (n : Nat) (s u : State), Runs n s u → s.armed = false →
    (∀ (k : Nat) (a b : State), k < n → Runs k s a → step a = .next b →
      (nextPorts a).rst = false ∧ (nextPorts a).rearm = false ∧
      ∀ x ∈ b.cycleSample, lt32 x.comp a.lower = false) →
    kicksIn n s = [] ∧ u.armed = false

/-- R80: the detector under each ordering of the thresholds. With `L < U`, a value from `L` to `U` changes nothing. With
`L = U`, only a value strictly to one side acts. With `L > U`, a value strictly between kicks when Armed and re-arms when
Disarmed, so such values alternate. In every ordering +0.0 re-arms a Disarmed detector whose `lower` is legal. -/
def Obligations.ThresholdOrderings : Prop :=
  ∀ (s : State) (v : Word), s.resetSeen = true → isFinite v = true →
    (lt32 s.lower s.upper = true → ge32 v s.lower = true → ge32 s.upper v = true → exec (.process v) s = .next s) ∧
    (s.lower = s.upper → legalUpper s.upper →
      (s.armed = true → gt32 v s.upper = false → exec (.process v) s = .next s) ∧
      (s.armed = false → lt32 v s.upper = false → exec (.process v) s = .next s)) ∧
    (gt32 v s.upper = true → lt32 v s.lower = true →
      (s.armed = true → ∃ i, exec (.process v) s = .next { s with armed := false, cycleKick := some i }) ∧
      (s.armed = false → exec (.process v) s = .next { s with armed := true })) ∧
    (legalLower s.lower → s.armed = false → exec (.process 0#32) s = .next { s with armed := true })

/-- R81: with `upper` at or above the largest compensated magnitude, +infinity included, no frame makes a kick or disarms;
with `lower` at +infinity every frame re-arms a Disarmed detector. -/
def Obligations.ExtremeThresholds : Prop :=
  ∀ (f : RawFrame) (s : State), s.resetSeen = true →
    (ge32 s.upper 0x41CCFB85#32 = true →
      ∃ t, exec (.frameDecode f) s = .next t ∧ t.cycleKick = s.cycleKick ∧ (s.armed = true → t.armed = true)) ∧
    (s.lower = 0x7F800000#32 → s.armed = false → ∃ t, exec (.frameDecode f) s = .next t ∧ t.armed = true)

/-- R93: the mode changes only through RESET or REARM, to Armed, or through the evaluation of a sample made in the
cycle. -/
def Obligations.ModeChangesOnlyThreeWays : Prop :=
  ∀ s t : State, step s = .next t → t.armed ≠ s.armed →
    ((nextPorts s).rst = true ∧ t.armed = true) ∨ ((nextPorts s).rearm = true ∧ t.armed = true) ∨
    ∃ x ∈ t.cycleSample, (s.armed = true ∧ gt32 x.comp s.upper = true ∧ t.armed = false) ∨
      (s.armed = false ∧ lt32 x.comp s.lower = true ∧ t.armed = true)

/-! ### The cycle -/

/-- R84: a step performs exec of the operations its ports select, in their order, between the sampling of the ports and the
clock edge. -/
def Obligations.StepRunsDecodedOperations : Prop :=
  ∀ (s : State),
    (∀ i t, decodePorts (nextPorts s) = [i] → exec i (beginCycle s) = .next t →
      step s = .next (endCycle Config.decLatency t)) ∧
    (∀ i r, decodePorts (nextPorts s) = [i] → exec i (beginCycle s) = .refused r → step s = .refused r) ∧
    (∀ i j t u, decodePorts (nextPorts s) = [i, j] → exec i (beginCycle s) = .next t → exec j t = .next u →
      step s = .next (endCycle Config.decLatency u)) ∧
    (∀ i j k t u v, decodePorts (nextPorts s) = [i, j, k] → exec i (beginCycle s) = .next t → exec j t = .next u →
      exec k u = .next v → step s = .next (endCycle Config.decLatency v))

/-- R47, R53: the internal operation that a full window selects is the one the byte that fills it performs. -/
def Obligations.ByteRunsDecodedWindow : Prop :=
  ∀ (b : Byte) (s : State) (i : Instr), s.resetSeen = true → decodeWindow (s.window ++ [b]) = .ok i →
    exec (.byte b) s = exec i { s with window := s.window ++ [b] }

/-- R84: the composition of a cycle without RESET. The byte is accepted against the state at the start of the cycle; REARM
overrides the mode it leaves; the threshold writes are clamped and apply last. -/
def Obligations.CycleComposesByteRearmConfig : Prop :=
  ∀ s : State, s.resetSeen = true → (nextPorts s).rst = false →
    ∃ m t, step s = .next t ∧
      ((nextPorts s).inValid = false → m = beginCycle s) ∧
      ((nextPorts s).inValid = true → (nextPorts s).inLast = false →
        exec (.byte (nextPorts s).inData) (beginCycle s) = .next m) ∧
      ((nextPorts s).inValid = true → (nextPorts s).inLast = true →
        exec (.byteLast (nextPorts s).inData) (beginCycle s) = .next m) ∧
      t.window = m.window ∧ t.cycleSample = m.cycleSample ∧ t.cycleKick = m.cycleKick ∧
      t.armed = (if (nextPorts s).rearm = true then true else m.armed) ∧
      t.upper = (if (nextPorts s).cfgUpperWe = true then clampFloor (nextPorts s).cfgUpperWdata 0x3DCCCCCD#32
        else s.upper) ∧
      t.lower = (if (nextPorts s).cfgLowerWe = true then clampFloor (nextPorts s).cfgLowerWdata 0x3C23D70A#32
        else s.lower)

/-- R89: after a RESET every cycle completes: no operation, in any state, with any operand, faults, stalls or is
refused. -/
def Obligations.EveryCycleCompletes : Prop :=
  (∀ s : State, s.resetSeen = true → ∃ t, step s = .next t ∧ t.resetSeen = true) ∧
  (∀ (i : Instr) (s : State), s.resetSeen = true → i.wellFormed = true → ∃ t, exec i s = .next t)

/-- R42, R107: threshold writes and REARM in the cycle that accepts a byte change neither the window, nor the sample, nor
the kick of that cycle. -/
def Obligations.SameCycleWritesAreNotSeen : Prop :=
  ∀ (s : State) (p q : PortIn), s.resetSeen = true → p.rst = false → q.rst = false →
    p.inValid = q.inValid → p.inLast = q.inLast → p.inData = q.inData →
    ∃ t u, step (driveNext s p) = .next t ∧ step (driveNext s q) = .next u ∧
      t.window = u.window ∧ t.cycleSample = u.cycleSample ∧ t.cycleKick = u.cycleKick

/-- R85: what the ports show, for every output latency. From any cycle, performed with a pipeline no fuller than the latency
allows, `lat - 1` further cycles without RESET put exactly that cycle's effects on the ports; and until then, after a RESET
cycle, both strobes are 0. -/
def Obligations.PortsShowEffectsAfterLatency : Prop :=
  (∀ (lat : Nat) (s t u : State), s.pipe.length < lat → cycle lat s = .next t → RunsAt lat (lat - 1) t u →
    (∀ k a, k < lat - 1 → RunsAt lat k t a → (nextPorts a).rst = false) →
    u.ports.smpValid = t.cycleSample.isSome ∧ (∀ x ∈ t.cycleSample, u.ports.smp = x) ∧
    u.ports.kickValid = t.cycleKick.isSome ∧ (∀ i ∈ t.cycleKick, u.ports.kickIntensity = i) ∧
    u.ports.armedO = t.armed ∧ u.ports.upperQ = t.upper ∧ u.ports.lowerQ = t.lower) ∧
  (∀ (lat n : Nat) (s t u : State), (nextPorts s).rst = true → cycle lat s = .next t → n < lat - 1 →
    RunsAt lat n t u → (∀ k a, k < n → RunsAt lat k t a → (nextPorts a).rst = false) →
    u.ports.smpValid = false ∧ u.ports.kickValid = false) ∧
  (∀ s : State, step s = cycle Config.decLatency s) ∧ 0 < Config.decLatency

/-- R87: after a cycle that makes a sample, none of the next 19 cycles makes one. -/
def Obligations.SamplesAreTwentyCyclesApart : Prop :=
  ∀ (s t u : State) (n : Nat), step s = .next t → t.cycleSample.isSome = true → n ≤ 19 → Runs n t u →
    samplesIn n t = []

/-! ### Buffers -/

/-- R65: while a buffer is delivered into an empty window, with cycles without a byte anywhere in it (R83) and REARM and
threshold writes in any cycle (R84), the samples made in the first `j` cycles are those of the source's scan of the bytes
accepted in them, for every `j`: so each sample is made in the cycle that accepts its frame's last byte, and the whole
delivery gives the scan of the whole buffer. Until the buffer's last byte the window holds the bytes from the scan position
on; after it the window is empty. One byte in every cycle is such a delivery. -/
def Obligations.BlockScansLikeSource : Prop :=
  (∀ (buffer : List Byte) (driven later : List PortIn) (s : State), Delivery buffer driven → s.resetSeen = true →
    s.window = [] → s.inputs = driven ++ later →
    acceptedBytes driven = buffer ∧
    ∀ j, j ≤ driven.length → samplesIn j s = scan (acceptedBytes (driven.take j)) ∧
      ∃ u, Runs j s u ∧ (j < driven.length → u.window = scanRest (acceptedBytes (driven.take j))) ∧
        (j = driven.length → u.window = [] ∧ u.inputs = later)) ∧
  (∀ buffer : List Byte, buffer ≠ [] → Delivery buffer (bufferPorts buffer))

/-- R54, R69: after a buffer's last byte the window is empty, so the next buffer is scanned on its own: a frame split
across two buffers yields no sample, however the two are delivered (R83, R84). -/
def Obligations.SplitFrameYieldsNoSample : Prop :=
  ∀ (front back : List Byte) (drivenFront drivenBack later : List PortIn) (s : State), Delivery front drivenFront →
    Delivery back drivenBack → s.resetSeen = true → s.window = [] → front.length + back.length = 20 →
    s.inputs = drivenFront ++ drivenBack ++ later →
    samplesIn (drivenFront.length + drivenBack.length) s = [] ∧
    ∃ u, Runs (drivenFront.length + drivenBack.length) s u ∧ u.window = []

/-- R66: however a buffer of `n` bytes is delivered (R83, R84), it takes `n` byte cycles, ends with an empty window and yields
at most `n / 20` samples, none if it is shorter than 20; two frames in one buffer yield their two samples in order; a stray
byte before a frame does not lose it. Without waiting, the delivery takes exactly `n` cycles. -/
def Obligations.ScanProperties : Prop :=
  (∀ (buffer : List Byte) (driven later : List PortIn) (s : State), Delivery buffer driven → s.resetSeen = true →
    s.window = [] → s.inputs = driven ++ later →
    (driven.filter PortIn.inValid).length = buffer.length ∧
    (∃ u, Runs driven.length s u ∧ u.window = [] ∧ u.inputs = later) ∧
    (samplesIn driven.length s).length ≤ buffer.length / 20 ∧
    (buffer.length < 20 → samplesIn driven.length s = [])) ∧
  (∀ (f g : RawFrame) (driven later : List PortIn) (s : State), Delivery (frameBytes f ++ frameBytes g) driven →
    s.resetSeen = true → s.window = [] → s.inputs = driven ++ later →
    samplesIn driven.length s = [decodeFrame f, decodeFrame g]) ∧
  (∀ (x : Byte) (f : RawFrame) (driven later : List PortIn) (s : State), Delivery (x :: frameBytes f) driven →
    s.resetSeen = true → s.window = [] → s.inputs = driven ++ later →
    samplesIn driven.length s = [decodeFrame f]) ∧
  (∀ buffer : List Byte, (bufferPorts buffer).length = buffer.length)

/-! ### The transaction level -/

/-- R88: over any number of cycles that complete, applying the operations of the cycles one after another gives the same
window, mode and thresholds, and the same samples and kicks in the same order. That the ports read 0 past the end of the
host's list is the model's choice (log entry 1). -/
def Obligations.TransactionLevelAgrees : Prop :=
  ∀ (n : Nat) (s u : State), Runs n s u →
    (∃ v, stateAfter (traceOf n s.inputs) s = some v ∧ coreState v = coreState u) ∧
    eventsOf (traceOf n s.inputs) s = (samplesIn n s, kicksIn n s)

/-- R88, the converse: any list of operations that have a control vector, run one operation per cycle, gives the same
window, mode and thresholds and the same samples and kicks as applying them one after another. -/
def Obligations.OneOperationPerCycleAgrees : Prop :=
  ∀ (ops : List Instr) (driven later : List PortIn) (s : State), s.resetSeen = true →
    ops.map encode = driven.map (fun p => some (Code.ports p)) → s.inputs = driven ++ later →
    ∃ u v, Runs ops.length s u ∧ stateAfter ops s = some v ∧ coreState v = coreState u ∧
      eventsOf ops s = (samplesIn ops.length s, kicksIn ops.length s)

/-- R8, R88: the output latency changes no state and no event, only the pipeline and the ports. -/
def Obligations.LatencyChangesOnlyOutputs : Prop :=
  ∀ (lat lat' : Nat) (s t : State), cycle lat s = .next t →
    ∃ u, cycle lat' s = .next u ∧ coreState u = coreState t ∧ u.cycleSample = t.cycleSample ∧
      u.cycleKick = t.cycleKick ∧ u.inputs = t.inputs ∧ u.resetSeen = t.resetSeen

/-! ### Invariants -/

/-- R16, R19, R24, R86: every step from a state that satisfies the invariant ends in one: the window stays short of a
frame, the thresholds stay legal, the pipeline stays within the latency, and no kick is without its sample. -/
def Obligations.StepKeepsInvariant : Prop :=
  ∀ s t : State, Inv s → step s = .next t → Inv t

/-- The state right after RESET satisfies the invariant. -/
def Obligations.ResetStateIsLegal : Prop := Legal State.reset

/-- R70, R78, R86: every step from a legal state keeps every sample and every kick the block holds, those shown on the ports
among them, in its range. -/
def Obligations.StepKeepsRanges : Prop :=
  ∀ s t : State, s.resetSeen = true → Legal s → RangesKept s → step s = .next t → RangesKept t

/-- The state right after RESET holds no sample and no kick out of range. -/
def Obligations.ResetStateKeepsRanges : Prop := RangesKept State.reset

/-- R99: one RESET cycle makes any state whatever, power-on states among them, a legal one. -/
def Obligations.ResetCycleEstablishesInvariant : Prop :=
  ∀ s : State, (nextPorts s).rst = true → ∃ t, step s = .next t ∧ t.resetSeen = true ∧ Legal t ∧ RangesKept t

/-! ### The fields of a sample -/

/-- R57, R58: in the sample of a frame each of the nine fields is the scaling that R60, R61 or R62 gives for the raw value of
that same field; the magnitude is that of the sample's own accelerations (R63), and the compensated magnitude that of the
sample's own magnitude (R64). Field `k` of a window's frame is the window's field `k`, in the order of R43. -/
def Obligations.SampleFieldsComeFromTheirOwnFields : Prop :=
  (∀ f : RawFrame,
    (decodeFrame f).ax = scaleAccel (rawValue f.ax) ∧ (decodeFrame f).ay = scaleAccel (rawValue f.ay) ∧
    (decodeFrame f).az = scaleAccel (rawValue f.az) ∧
    (decodeFrame f).wx = scaleGyro (rawValue f.wx) ∧ (decodeFrame f).wy = scaleGyro (rawValue f.wy) ∧
    (decodeFrame f).wz = scaleGyro (rawValue f.wz) ∧
    (decodeFrame f).roll = scaleAngle (rawValue f.roll) ∧ (decodeFrame f).pitch = scaleAngle (rawValue f.pitch) ∧
    (decodeFrame f).yaw = scaleAngle (rawValue f.yaw) ∧
    (decodeFrame f).mag = magnitude (decodeFrame f).ax (decodeFrame f).ay (decodeFrame f).az ∧
    (decodeFrame f).comp = compensate (decodeFrame f).mag) ∧
  (∀ w : List Byte,
    (frameOf w).ax = fieldOf w 0 ∧ (frameOf w).ay = fieldOf w 1 ∧ (frameOf w).az = fieldOf w 2 ∧
    (frameOf w).wx = fieldOf w 3 ∧ (frameOf w).wy = fieldOf w 4 ∧ (frameOf w).wz = fieldOf w 5 ∧
    (frameOf w).roll = fieldOf w 6 ∧ (frameOf w).pitch = fieldOf w 7 ∧ (frameOf w).yaw = fieldOf w 8)
end

