-- ==== Sys2Proof/Laws/State.lean ====
section
/-! SUPPORT. One lemma per field of the state per named update, so that no proof unfolds a record update. -/

namespace Sys2Proof.Machine

variable (s : State)

@[simp] theorem appendByte_window (b : Byte) : (appendByte s b).window = s.window ++ [b] := rfl
@[simp] theorem appendByte_armed (b : Byte) : (appendByte s b).armed = s.armed := rfl
@[simp] theorem appendByte_upper (b : Byte) : (appendByte s b).upper = s.upper := rfl
@[simp] theorem appendByte_lower (b : Byte) : (appendByte s b).lower = s.lower := rfl
@[simp] theorem appendByte_cycleSample (b : Byte) : (appendByte s b).cycleSample = s.cycleSample := rfl
@[simp] theorem appendByte_cycleKick (b : Byte) : (appendByte s b).cycleKick = s.cycleKick := rfl
@[simp] theorem appendByte_pipe (b : Byte) : (appendByte s b).pipe = s.pipe := rfl
@[simp] theorem appendByte_ports (b : Byte) : (appendByte s b).ports = s.ports := rfl
@[simp] theorem appendByte_inputs (b : Byte) : (appendByte s b).inputs = s.inputs := rfl
@[simp] theorem appendByte_resetSeen (b : Byte) : (appendByte s b).resetSeen = s.resetSeen := rfl
@[simp] theorem appendByte_freeCount (b : Byte) : (appendByte s b).freeCount = s.freeCount := rfl

@[simp] theorem clearWindow_window : (clearWindow s).window = [] := rfl
@[simp] theorem clearWindow_armed : (clearWindow s).armed = s.armed := rfl
@[simp] theorem clearWindow_upper : (clearWindow s).upper = s.upper := rfl
@[simp] theorem clearWindow_lower : (clearWindow s).lower = s.lower := rfl
@[simp] theorem clearWindow_cycleSample : (clearWindow s).cycleSample = s.cycleSample := rfl
@[simp] theorem clearWindow_cycleKick : (clearWindow s).cycleKick = s.cycleKick := rfl
@[simp] theorem clearWindow_pipe : (clearWindow s).pipe = s.pipe := rfl
@[simp] theorem clearWindow_ports : (clearWindow s).ports = s.ports := rfl
@[simp] theorem clearWindow_inputs : (clearWindow s).inputs = s.inputs := rfl
@[simp] theorem clearWindow_resetSeen : (clearWindow s).resetSeen = s.resetSeen := rfl
@[simp] theorem clearWindow_freeCount : (clearWindow s).freeCount = s.freeCount := rfl

@[simp] theorem dropOldest_window : (dropOldest s).window = s.window.tail := rfl
@[simp] theorem dropOldest_armed : (dropOldest s).armed = s.armed := rfl
@[simp] theorem dropOldest_upper : (dropOldest s).upper = s.upper := rfl
@[simp] theorem dropOldest_lower : (dropOldest s).lower = s.lower := rfl
@[simp] theorem dropOldest_cycleSample : (dropOldest s).cycleSample = s.cycleSample := rfl
@[simp] theorem dropOldest_cycleKick : (dropOldest s).cycleKick = s.cycleKick := rfl
@[simp] theorem dropOldest_pipe : (dropOldest s).pipe = s.pipe := rfl
@[simp] theorem dropOldest_ports : (dropOldest s).ports = s.ports := rfl
@[simp] theorem dropOldest_inputs : (dropOldest s).inputs = s.inputs := rfl
@[simp] theorem dropOldest_resetSeen : (dropOldest s).resetSeen = s.resetSeen := rfl
@[simp] theorem dropOldest_freeCount : (dropOldest s).freeCount = s.freeCount := rfl

@[simp] theorem emitSample_window (x : Sample) : (emitSample s x).window = s.window := rfl
@[simp] theorem emitSample_armed (x : Sample) : (emitSample s x).armed = s.armed := rfl
@[simp] theorem emitSample_upper (x : Sample) : (emitSample s x).upper = s.upper := rfl
@[simp] theorem emitSample_lower (x : Sample) : (emitSample s x).lower = s.lower := rfl
@[simp] theorem emitSample_cycleSample (x : Sample) : (emitSample s x).cycleSample = some x := rfl
@[simp] theorem emitSample_cycleKick (x : Sample) : (emitSample s x).cycleKick = s.cycleKick := rfl
@[simp] theorem emitSample_pipe (x : Sample) : (emitSample s x).pipe = s.pipe := rfl
@[simp] theorem emitSample_ports (x : Sample) : (emitSample s x).ports = s.ports := rfl
@[simp] theorem emitSample_inputs (x : Sample) : (emitSample s x).inputs = s.inputs := rfl
@[simp] theorem emitSample_resetSeen (x : Sample) : (emitSample s x).resetSeen = s.resetSeen := rfl
@[simp] theorem emitSample_freeCount (x : Sample) : (emitSample s x).freeCount = s.freeCount := rfl

@[simp] theorem evaluate_window (v : Word) : (evaluate s v).window = s.window := rfl
@[simp] theorem evaluate_armed (v : Word) : (evaluate s v).armed = armedAfter s.armed v s.upper s.lower := rfl
@[simp] theorem evaluate_upper (v : Word) : (evaluate s v).upper = s.upper := rfl
@[simp] theorem evaluate_lower (v : Word) : (evaluate s v).lower = s.lower := rfl
@[simp] theorem evaluate_cycleSample (v : Word) : (evaluate s v).cycleSample = s.cycleSample := rfl
@[simp] theorem evaluate_cycleKick (v :
    Word) : (evaluate s v).cycleKick = (kickOf s.armed v s.upper).or s.cycleKick := rfl
@[simp] theorem evaluate_pipe (v : Word) : (evaluate s v).pipe = s.pipe := rfl
@[simp] theorem evaluate_ports (v : Word) : (evaluate s v).ports = s.ports := rfl
@[simp] theorem evaluate_inputs (v : Word) : (evaluate s v).inputs = s.inputs := rfl
@[simp] theorem evaluate_resetSeen (v : Word) : (evaluate s v).resetSeen = s.resetSeen := rfl
@[simp] theorem evaluate_freeCount (v : Word) : (evaluate s v).freeCount = s.freeCount := rfl

@[simp] theorem decodeAndEvaluate_window (f : RawFrame) : (decodeAndEvaluate s f).window = [] := rfl
@[simp] theorem decodeAndEvaluate_armed (f :
    RawFrame) : (decodeAndEvaluate s f).armed = armedAfter s.armed (decodeFrame f).comp s.upper s.lower := rfl
@[simp] theorem decodeAndEvaluate_upper (f : RawFrame) : (decodeAndEvaluate s f).upper = s.upper := rfl
@[simp] theorem decodeAndEvaluate_lower (f : RawFrame) : (decodeAndEvaluate s f).lower = s.lower := rfl
@[simp] theorem decodeAndEvaluate_cycleSample (f :
    RawFrame) : (decodeAndEvaluate s f).cycleSample = some (decodeFrame f) := rfl
@[simp] theorem decodeAndEvaluate_cycleKick (f :
    RawFrame) : (decodeAndEvaluate s f).cycleKick = (kickOf s.armed (decodeFrame f).comp s.upper).or s.cycleKick := rfl
@[simp] theorem decodeAndEvaluate_pipe (f : RawFrame) : (decodeAndEvaluate s f).pipe = s.pipe := rfl
@[simp] theorem decodeAndEvaluate_ports (f : RawFrame) : (decodeAndEvaluate s f).ports = s.ports := rfl
@[simp] theorem decodeAndEvaluate_inputs (f : RawFrame) : (decodeAndEvaluate s f).inputs = s.inputs := rfl
@[simp] theorem decodeAndEvaluate_resetSeen (f : RawFrame) : (decodeAndEvaluate s f).resetSeen = s.resetSeen := rfl
@[simp] theorem decodeAndEvaluate_freeCount (f : RawFrame) : (decodeAndEvaluate s f).freeCount = s.freeCount := rfl

@[simp] theorem writeUpper_window (p : Word) : (writeUpper s p).window = s.window := rfl
@[simp] theorem writeUpper_armed (p : Word) : (writeUpper s p).armed = s.armed := rfl
@[simp] theorem writeUpper_upper (p : Word) : (writeUpper s p).upper = clampFloor p upperFloor := rfl
@[simp] theorem writeUpper_lower (p : Word) : (writeUpper s p).lower = s.lower := rfl
@[simp] theorem writeUpper_cycleSample (p : Word) : (writeUpper s p).cycleSample = s.cycleSample := rfl
@[simp] theorem writeUpper_cycleKick (p : Word) : (writeUpper s p).cycleKick = s.cycleKick := rfl
@[simp] theorem writeUpper_pipe (p : Word) : (writeUpper s p).pipe = s.pipe := rfl
@[simp] theorem writeUpper_ports (p : Word) : (writeUpper s p).ports = s.ports := rfl
@[simp] theorem writeUpper_inputs (p : Word) : (writeUpper s p).inputs = s.inputs := rfl
@[simp] theorem writeUpper_resetSeen (p : Word) : (writeUpper s p).resetSeen = s.resetSeen := rfl
@[simp] theorem writeUpper_freeCount (p : Word) : (writeUpper s p).freeCount = s.freeCount := rfl

@[simp] theorem writeLower_window (p : Word) : (writeLower s p).window = s.window := rfl
@[simp] theorem writeLower_armed (p : Word) : (writeLower s p).armed = s.armed := rfl
@[simp] theorem writeLower_upper (p : Word) : (writeLower s p).upper = s.upper := rfl
@[simp] theorem writeLower_lower (p : Word) : (writeLower s p).lower = clampFloor p lowerFloor := rfl
@[simp] theorem writeLower_cycleSample (p : Word) : (writeLower s p).cycleSample = s.cycleSample := rfl
@[simp] theorem writeLower_cycleKick (p : Word) : (writeLower s p).cycleKick = s.cycleKick := rfl
@[simp] theorem writeLower_pipe (p : Word) : (writeLower s p).pipe = s.pipe := rfl
@[simp] theorem writeLower_ports (p : Word) : (writeLower s p).ports = s.ports := rfl
@[simp] theorem writeLower_inputs (p : Word) : (writeLower s p).inputs = s.inputs := rfl
@[simp] theorem writeLower_resetSeen (p : Word) : (writeLower s p).resetSeen = s.resetSeen := rfl
@[simp] theorem writeLower_freeCount (p : Word) : (writeLower s p).freeCount = s.freeCount := rfl

@[simp] theorem setArmed_window : (setArmed s).window = s.window := rfl
@[simp] theorem setArmed_armed : (setArmed s).armed = true := rfl
@[simp] theorem setArmed_upper : (setArmed s).upper = s.upper := rfl
@[simp] theorem setArmed_lower : (setArmed s).lower = s.lower := rfl
@[simp] theorem setArmed_cycleSample : (setArmed s).cycleSample = s.cycleSample := rfl
@[simp] theorem setArmed_cycleKick : (setArmed s).cycleKick = s.cycleKick := rfl
@[simp] theorem setArmed_pipe : (setArmed s).pipe = s.pipe := rfl
@[simp] theorem setArmed_ports : (setArmed s).ports = s.ports := rfl
@[simp] theorem setArmed_inputs : (setArmed s).inputs = s.inputs := rfl
@[simp] theorem setArmed_resetSeen : (setArmed s).resetSeen = s.resetSeen := rfl
@[simp] theorem setArmed_freeCount : (setArmed s).freeCount = s.freeCount := rfl

@[simp] theorem hardReset_window : (hardReset s).window = [] := rfl
@[simp] theorem hardReset_armed : (hardReset s).armed = true := rfl
@[simp] theorem hardReset_upper : (hardReset s).upper = upperDefault := rfl
@[simp] theorem hardReset_lower : (hardReset s).lower = lowerDefault := rfl
@[simp] theorem hardReset_cycleSample : (hardReset s).cycleSample = none := rfl
@[simp] theorem hardReset_cycleKick : (hardReset s).cycleKick = none := rfl
@[simp] theorem hardReset_pipe : (hardReset s).pipe = [] := rfl
@[simp] theorem hardReset_ports : (hardReset s).ports = s.ports := rfl
@[simp] theorem hardReset_inputs : (hardReset s).inputs = s.inputs := rfl
@[simp] theorem hardReset_resetSeen : (hardReset s).resetSeen = true := rfl
@[simp] theorem hardReset_freeCount : (hardReset s).freeCount = s.freeCount := rfl

@[simp] theorem beginCycle_window : (beginCycle s).window = s.window := rfl
@[simp] theorem beginCycle_armed : (beginCycle s).armed = s.armed := rfl
@[simp] theorem beginCycle_upper : (beginCycle s).upper = s.upper := rfl
@[simp] theorem beginCycle_lower : (beginCycle s).lower = s.lower := rfl
@[simp] theorem beginCycle_cycleSample : (beginCycle s).cycleSample = none := rfl
@[simp] theorem beginCycle_cycleKick : (beginCycle s).cycleKick = none := rfl
@[simp] theorem beginCycle_pipe : (beginCycle s).pipe = s.pipe := rfl
@[simp] theorem beginCycle_ports : (beginCycle s).ports = s.ports := rfl
@[simp] theorem beginCycle_inputs : (beginCycle s).inputs = s.inputs.tail := rfl
@[simp] theorem beginCycle_resetSeen : (beginCycle s).resetSeen = s.resetSeen := rfl
@[simp] theorem beginCycle_freeCount : (beginCycle s).freeCount = s.freeCount := rfl

@[simp] theorem driveNext_window (p : PortIn) : (driveNext s p).window = s.window := rfl
@[simp] theorem driveNext_armed (p : PortIn) : (driveNext s p).armed = s.armed := rfl
@[simp] theorem driveNext_upper (p : PortIn) : (driveNext s p).upper = s.upper := rfl
@[simp] theorem driveNext_lower (p : PortIn) : (driveNext s p).lower = s.lower := rfl
@[simp] theorem driveNext_cycleSample (p : PortIn) : (driveNext s p).cycleSample = s.cycleSample := rfl
@[simp] theorem driveNext_cycleKick (p : PortIn) : (driveNext s p).cycleKick = s.cycleKick := rfl
@[simp] theorem driveNext_pipe (p : PortIn) : (driveNext s p).pipe = s.pipe := rfl
@[simp] theorem driveNext_ports (p : PortIn) : (driveNext s p).ports = s.ports := rfl
@[simp] theorem driveNext_inputs (p : PortIn) : (driveNext s p).inputs = p :: s.inputs.tail := rfl
@[simp] theorem driveNext_resetSeen (p : PortIn) : (driveNext s p).resetSeen = s.resetSeen := rfl
@[simp] theorem driveNext_freeCount (p : PortIn) : (driveNext s p).freeCount = s.freeCount := rfl

@[simp] theorem endCycle_window (lat : Nat) : (endCycle lat s).window = s.window := rfl
@[simp] theorem endCycle_armed (lat : Nat) : (endCycle lat s).armed = s.armed := rfl
@[simp] theorem endCycle_upper (lat : Nat) : (endCycle lat s).upper = s.upper := rfl
@[simp] theorem endCycle_lower (lat : Nat) : (endCycle lat s).lower = s.lower := rfl
@[simp] theorem endCycle_cycleSample (lat : Nat) : (endCycle lat s).cycleSample = s.cycleSample := rfl
@[simp] theorem endCycle_cycleKick (lat : Nat) : (endCycle lat s).cycleKick = s.cycleKick := rfl
@[simp] theorem endCycle_pipe (lat : Nat) : (endCycle lat s).pipe = (clockPipe lat s.pipe (cycleEffects s)).2 := rfl
@[simp] theorem endCycle_ports (lat :
    Nat) : (endCycle lat s).ports = present (clockPipe lat s.pipe (cycleEffects s)).1 s.freeCount := rfl
@[simp] theorem endCycle_inputs (lat : Nat) : (endCycle lat s).inputs = s.inputs := rfl
@[simp] theorem endCycle_resetSeen (lat : Nat) : (endCycle lat s).resetSeen = s.resetSeen := rfl
@[simp] theorem endCycle_freeCount (lat : Nat) : (endCycle lat s).freeCount = s.freeCount + freePerCycle := rfl

@[simp] theorem cycleEffects_sample : (cycleEffects s).sample = s.cycleSample := rfl
@[simp] theorem cycleEffects_kick : (cycleEffects s).kick = s.cycleKick := rfl
@[simp] theorem cycleEffects_armed : (cycleEffects s).armed = s.armed := rfl
@[simp] theorem cycleEffects_upper : (cycleEffects s).upper = s.upper := rfl
@[simp] theorem cycleEffects_lower : (cycleEffects s).lower = s.lower := rfl

@[simp] theorem present_some_smpValid (e : Effects) (n : Nat) : (present (some e) n).smpValid = e.sample.isSome := rfl
@[simp] theorem present_some_smp (e : Effects) (n : Nat) : (present (some e) n).smp = e.sample.getD (freeSample n) := rfl
@[simp] theorem present_some_kickValid (e : Effects) (n : Nat) : (present (some e) n).kickValid = e.kick.isSome := rfl
@[simp] theorem present_some_kickIntensity (e :
    Effects) (n : Nat) : (present (some e) n).kickIntensity = e.kick.getD (Config.freeWord (n + 11)) := rfl
@[simp] theorem present_some_armedO (e : Effects) (n : Nat) : (present (some e) n).armedO = e.armed := rfl
@[simp] theorem present_some_upperQ (e : Effects) (n : Nat) : (present (some e) n).upperQ = e.upper := rfl
@[simp] theorem present_some_lowerQ (e : Effects) (n : Nat) : (present (some e) n).lowerQ = e.lower := rfl
@[simp] theorem present_none_smpValid (n : Nat) : (present none n).smpValid = false := rfl
@[simp] theorem present_none_kickValid (n : Nat) : (present none n).kickValid = false := rfl

/-! The block right after RESET, field by field (R26). -/

@[simp] theorem resetAt_window (lat : Nat) : (State.resetAt lat).window = [] := rfl
@[simp] theorem resetAt_armed (lat : Nat) : (State.resetAt lat).armed = true := rfl
@[simp] theorem resetAt_upper (lat : Nat) : (State.resetAt lat).upper = upperDefault := rfl
@[simp] theorem resetAt_lower (lat : Nat) : (State.resetAt lat).lower = lowerDefault := rfl
@[simp] theorem resetAt_cycleSample (lat : Nat) : (State.resetAt lat).cycleSample = none := rfl
@[simp] theorem resetAt_cycleKick (lat : Nat) : (State.resetAt lat).cycleKick = none := rfl
@[simp] theorem resetAt_pipe (lat : Nat) : (State.resetAt lat).pipe = (clockPipe lat [] resetEffects).2 := rfl
@[simp] theorem resetAt_ports (lat : Nat) : (State.resetAt lat).ports = present (clockPipe lat [] resetEffects).1 0 := rfl
@[simp] theorem resetAt_inputs (lat : Nat) : (State.resetAt lat).inputs = [] := rfl
@[simp] theorem resetAt_resetSeen (lat : Nat) : (State.resetAt lat).resetSeen = true := rfl
@[simp] theorem resetAt_freeCount (lat : Nat) : (State.resetAt lat).freeCount = freePerCycle := rfl

theorem reset_eq : State.reset = State.resetAt Config.decLatency := rfl

theorem decLatency_pos : 0 < Config.decLatency := Nat.succ_pos _

end Sys2Proof.Machine
end

