-- ==== Sys2Proof/Laws/Ops.lean ====
section
/-! SUPPORT. What each shared operation can do, said once: the window test, the guard before the first RESET, the output
pipeline, a list of operations, a step. -/

namespace Sys2Proof.Machine

variable {s t : State}

theorem afterReset_eq_next : afterReset s t = .next u ↔ s.resetSeen = true ∧ t = u := by
  unfold afterReset
  split <;> simp_all

theorem afterReset_of_seen (h : s.resetSeen = true) : afterReset s t = .next t := by simp [afterReset, h]

theorem afterReset_of_not_seen (h : s.resetSeen = false) : afterReset s t = .refused .beforeFirstReset := by
  simp [afterReset, h]

/-! The window test (R53). -/

theorem decodeWindow_frame {w : List Byte} (hl : w.length = frameLen)
    (hh : isHeader (w.getD 0 0#8) (w.getD 1 0#8) = true) : decodeWindow w = .ok (.frameDecode (frameOf w)) := by
  simp only [decodeWindow, hl, hh, if_true]

theorem decodeWindow_skip {w : List Byte} (hl : w.length = frameLen)
    (hh : isHeader (w.getD 0 0#8) (w.getD 1 0#8) = false) :
    decodeWindow w = .ok (.windowSkip (w.getD 0 0#8) (w.getD 1 0#8)) := by
  simp only [decodeWindow, hl, hh, if_true, Bool.false_eq_true, if_false]

theorem decodeWindow_notFull {w : List Byte} (hl : w.length ≠ frameLen) :
    decodeWindow w = .error .windowNotFull := by
  simp only [decodeWindow, hl, if_false]

theorem windowTest_frame (hl : s.window.length = frameLen)
    (hh : isHeader (s.window.getD 0 0#8) (s.window.getD 1 0#8) = true) :
    windowTest s = decodeAndEvaluate s (frameOf s.window) := by
  simp only [windowTest, decodeWindow_frame hl hh]

theorem windowTest_skip (hl : s.window.length = frameLen)
    (hh : isHeader (s.window.getD 0 0#8) (s.window.getD 1 0#8) = false) : windowTest s = dropOldest s := by
  simp only [windowTest, decodeWindow_skip hl hh]

theorem windowTest_notFull (hl : s.window.length ≠ frameLen) : windowTest s = s := by
  simp only [windowTest, decodeWindow_notFull hl]

/-- Everything the window test can do. -/
theorem windowTest_cases (s : State) :
    (s.window.length = frameLen ∧ isHeader (s.window.getD 0 0#8) (s.window.getD 1 0#8) = true ∧
      windowTest s = decodeAndEvaluate s (frameOf s.window)) ∨
    (s.window.length = frameLen ∧ isHeader (s.window.getD 0 0#8) (s.window.getD 1 0#8) = false ∧
      windowTest s = dropOldest s) ∨
    (s.window.length ≠ frameLen ∧ windowTest s = s) := by
  by_cases hl : s.window.length = frameLen
  · cases hh : isHeader (s.window.getD 0 0#8) (s.window.getD 1 0#8)
    · exact .inr (.inl ⟨hl, rfl, windowTest_skip hl hh⟩)
    · exact .inl ⟨hl, rfl, windowTest_frame hl hh⟩
  · exact .inr (.inr ⟨hl, windowTest_notFull hl⟩)

@[simp] theorem windowTest_upper (s : State) : (windowTest s).upper = s.upper := by
  rcases windowTest_cases s with ⟨-, -, h⟩ | ⟨-, -, h⟩ | ⟨-, h⟩ <;> simp [h]

@[simp] theorem windowTest_lower (s : State) : (windowTest s).lower = s.lower := by
  rcases windowTest_cases s with ⟨-, -, h⟩ | ⟨-, -, h⟩ | ⟨-, h⟩ <;> simp [h]

@[simp] theorem windowTest_pipe (s : State) : (windowTest s).pipe = s.pipe := by
  rcases windowTest_cases s with ⟨-, -, h⟩ | ⟨-, -, h⟩ | ⟨-, h⟩ <;> simp [h]

@[simp] theorem windowTest_ports (s : State) : (windowTest s).ports = s.ports := by
  rcases windowTest_cases s with ⟨-, -, h⟩ | ⟨-, -, h⟩ | ⟨-, h⟩ <;> simp [h]

@[simp] theorem windowTest_inputs (s : State) : (windowTest s).inputs = s.inputs := by
  rcases windowTest_cases s with ⟨-, -, h⟩ | ⟨-, -, h⟩ | ⟨-, h⟩ <;> simp [h]

@[simp] theorem windowTest_resetSeen (s : State) : (windowTest s).resetSeen = s.resetSeen := by
  rcases windowTest_cases s with ⟨-, -, h⟩ | ⟨-, -, h⟩ | ⟨-, h⟩ <;> simp [h]

@[simp] theorem windowTest_freeCount (s : State) : (windowTest s).freeCount = s.freeCount := by
  rcases windowTest_cases s with ⟨-, -, h⟩ | ⟨-, -, h⟩ | ⟨-, h⟩ <;> simp [h]

/-- A byte leaves fewer than 20 bytes in a window that held fewer than 20 (R16). -/
theorem acceptByte_window_short (b : Byte) (h : s.window.length < frameLen) :
    (acceptByte s b).window.length < frameLen := by
  unfold acceptByte frameLen at *
  rcases windowTest_cases (appendByte s b) with ⟨-, -, e⟩ | ⟨hl, -, e⟩ | ⟨hl, e⟩ <;> rw [e]
  · simp
  · simp_all [frameLen]
  · simp only [appendByte_window, List.length_append, List.length_singleton, frameLen] at hl ⊢
    omega

/-! The rows of R47's table, as conditions on the ports. -/

/-- The six bits of a control vector (R46). -/
abbrev controlBits (a b c d e f : Bool) : BitVec 6 :=
  BitVec.ofBool a ++ BitVec.ofBool b ++ BitVec.ofBool c ++ BitVec.ofBool d ++ BitVec.ofBool e ++ BitVec.ofBool f

theorem controlVector_eq (p : PortIn) :
    controlVector p = controlBits p.rst p.inValid p.inLast p.cfgUpperWe p.cfgLowerWe p.rearm := rfl

theorem selects_reset (p : PortIn) : rowReset.selects (controlVector p) = p.rst := by
  have h : ∀ a b c d e f : Bool, rowReset.selects (controlBits a b c d e f) = a := by decide
  exact h ..

theorem selects_idle (p : PortIn) : rowIdle.selects (controlVector p) =
    (!p.rst && !p.inValid && !p.cfgUpperWe && !p.cfgLowerWe && !p.rearm) := by
  have h : ∀ a b c d e f : Bool, rowIdle.selects (controlBits a b c d e f) = (!a && !b && !d && !e && !f) := by decide
  exact h ..

theorem selects_byte (p : PortIn) : rowByte.selects (controlVector p) =
    (!p.rst && p.inValid && !p.inLast) := by
  have h : ∀ a b c d e f : Bool, rowByte.selects (controlBits a b c d e f) = (!a && b && !c) := by decide
  exact h ..

theorem selects_byteLast (p : PortIn) : rowByteLast.selects (controlVector p) =
    (!p.rst && p.inValid && p.inLast) := by
  have h : ∀ a b c d e f : Bool, rowByteLast.selects (controlBits a b c d e f) = (!a && b && c) := by decide
  exact h ..

theorem selects_setUpper (p : PortIn) : rowSetUpper.selects (controlVector p) =
    (!p.rst && p.cfgUpperWe && !p.cfgLowerWe) := by
  have h : ∀ a b c d e f : Bool, rowSetUpper.selects (controlBits a b c d e f) = (!a && d && !e) := by decide
  exact h ..

theorem selects_setLower (p : PortIn) : rowSetLower.selects (controlVector p) =
    (!p.rst && !p.cfgUpperWe && p.cfgLowerWe) := by
  have h : ∀ a b c d e f : Bool, rowSetLower.selects (controlBits a b c d e f) = (!a && !d && e) := by decide
  exact h ..

theorem selects_setThresholds (p : PortIn) : rowSetThresholds.selects (controlVector p) =
    (!p.rst && p.cfgUpperWe && p.cfgLowerWe) := by
  have h : ∀ a b c d e f : Bool, rowSetThresholds.selects (controlBits a b c d e f) = (!a && d && e) := by decide
  exact h ..

theorem selects_rearm (p : PortIn) : rowRearm.selects (controlVector p) = (!p.rst && p.rearm) := by
  have h : ∀ a b c d e f : Bool, rowRearm.selects (controlBits a b c d e f) = (!a && f) := by decide
  exact h ..

/-! The output pipeline (R85). -/

/-- Everything one clock of the pipeline can do: while it fills, the new effects join it and nothing is shown; then the
oldest effects are shown. -/
theorem clockPipe_cases (lat : Nat) (pipe : List Effects) (e : Effects) :
    ((pipe ++ [e]).length < lat ∧ clockPipe lat pipe e = (none, pipe ++ [e])) ∨
    (¬ (pipe ++ [e]).length < lat ∧ pipe = [] ∧ clockPipe lat pipe e = (some e, [])) ∨
    (¬ (pipe ++ [e]).length < lat ∧ ∃ d rest, pipe = d :: rest ∧ clockPipe lat pipe e = (some d, rest ++ [e])) := by
  by_cases h : (pipe ++ [e]).length < lat
  · exact .inl ⟨h, by rw [clockPipe, if_pos h]⟩
  · cases pipe with
    | nil => exact .inr (.inl ⟨h, rfl, by rw [clockPipe, if_neg h]; rfl⟩)
    | cons d rest => exact .inr (.inr ⟨h, d, rest, rfl, by rw [clockPipe, if_neg h]; rfl⟩)

/-- The pipeline never holds more than `lat - 1` cycles' effects (R24). -/
theorem clockPipe_length_lt {lat : Nat} {pipe : List Effects} (e : Effects) (h : pipe.length < lat) :
    (clockPipe lat pipe e).2.length < lat := by
  rcases clockPipe_cases lat pipe e with ⟨h1, h2⟩ | ⟨-, rfl, h2⟩ | ⟨-, d, rest, rfl, h2⟩ <;> rw [h2] <;> simp_all

/-! One operation, a list of operations, one step. -/

/-- An operation that completes leaves a machine that has been reset. -/
theorem exec_resetSeen {i : Instr} (h : exec i s = .next t) : t.resetSeen = true := by
  cases i with
  | reset => cases h; rfl
  | process v =>
    simp only [exec, execProcess] at h
    split at h
    · obtain ⟨h1, rfl⟩ := afterReset_eq_next.mp h; simpa using h1
    · cases h
  | _ =>
    obtain ⟨h1, rfl⟩ := afterReset_eq_next.mp h
    simpa [acceptByte] using h1

/-- No operation touches the output registers, the host's port values or the count of free values. -/
theorem exec_frame {i : Instr} (h : exec i s = .next t) :
    t.ports = s.ports ∧ t.inputs = s.inputs ∧ t.freeCount = s.freeCount := by
  cases i with
  | reset => cases h; exact ⟨rfl, rfl, rfl⟩
  | process v =>
    simp only [exec, execProcess] at h
    split at h
    · obtain ⟨h1, rfl⟩ := afterReset_eq_next.mp h; simp
    · cases h
  | _ =>
    obtain ⟨h1, rfl⟩ := afterReset_eq_next.mp h
    simp [acceptByte]

theorem execAll_nil : execAll [] s = .next s := rfl

theorem execAll_cons_next {i : Instr} {rest : List Instr} (h : exec i s = .next t) :
    execAll (i :: rest) s = execAll rest t := by
  simp only [execAll, h]

/-- A list of operations completes exactly when its first one does and the others do from there. -/
theorem execAll_cons_eq_next {i : Instr} {rest : List Instr} {u : State} :
    execAll (i :: rest) s = .next u ↔ ∃ t, exec i s = .next t ∧ execAll rest t = .next u := by
  cases h : exec i s <;> simp [execAll, h]

theorem cycle_eq_next {lat : Nat} :
    cycle lat s = .next t ↔
      ∃ u, execAll (decodePorts (nextPorts s)) (beginCycle s) = .next u ∧ endCycle lat u = t := by
  unfold cycle
  cases execAll (decodePorts (nextPorts s)) (beginCycle s) <;> simp

/-- Everything a step that completes does: the cycle's operations in order, then the clock edge. -/
theorem step_eq_next :
    step s = .next t ↔
      ∃ u, execAll (decodePorts (nextPorts s)) (beginCycle s) = .next u ∧ endCycle Config.decLatency u = t :=
  cycle_eq_next

end Sys2Proof.Machine
end

