-- ==== Sys2Proof/Laws/Decode.lean ====
section
/-! SUPPORT. What the decoders answer, and which operations complete: the lemmas that carry a statement about one operation
to a cycle. -/

namespace Sys2Proof.Machine

variable {s : State}

theorem isHeader_iff (a b : Byte) : isHeader a b = true ↔ a = 0x55#8 ∧ b = 0x61#8 := by simp [isHeader, hdr0, hdr1]

theorem isHeader_eq_false {a b : Byte} (h : ¬ (a = 0x55#8 ∧ b = 0x61#8)) : isHeader a b = false := by
  rw [← Bool.not_eq_true]
  exact fun e => h ((isHeader_iff a b).mp e)

/-! Fields and their bytes (R43, R44). -/

/-- The two bytes of a field, joined again. -/
theorem field_join (h : Half) : h.extractLsb' 8 8 ++ h.extractLsb' 0 8 = h := by
  ext i hi
  simp only [BitVec.getElem_append, BitVec.getElem_extractLsb']
  split
  · simp [BitVec.getLsbD_eq_getElem hi]
  · simp [show 8 + (i - 8) = i by omega, BitVec.getLsbD_eq_getElem hi]

/-- The bytes a field was read from. -/
theorem fieldBytes_fieldOf (w : List Byte) (k : Nat) :
    fieldBytes (fieldOf w k) = [w.getD (2 + 2 * k) 0#8, w.getD (3 + 2 * k) 0#8] := by
  unfold fieldBytes fieldOf
  congr 1
  · ext i hi
    simp only [BitVec.getElem_extractLsb', BitVec.getLsbD_append]
    simp [hi, BitVec.getLsbD_eq_getElem]
  · congr 1
    ext i hi
    simp only [BitVec.getElem_extractLsb', BitVec.getLsbD_append]
    simp [hi, BitVec.getLsbD_eq_getElem]

/-- The fields of a frame's own bytes are the frame. -/
theorem frameOf_frameBytes (f : RawFrame) : frameOf (frameBytes f) = f := by
  obtain ⟨ax, ay, az, wx, wy, wz, roll, pitch, yaw⟩ := f
  simp only [frameOf]
  congr 1 <;> exact field_join _

@[simp] theorem frameBytes_length (f : RawFrame) : (frameBytes f).length = 20 := rfl

/-! Control vectors (R47). -/

/-- The operations of a cycle, as conditions on the ports. -/
theorem decodePorts_eq (p : PortIn) : decodePorts p =
    if p.rst = true then [.reset]
    else if (!p.inValid && !p.cfgUpperWe && !p.cfgLowerWe && !p.rearm) = true then [.idle]
    else byteGroup p ++ rearmGroup p ++ configGroup p := by
  simp only [decodePorts, selects_reset, selects_idle]
  rcases p.rst <;> simp

theorem decodePorts_rst {p : PortIn} (h : p.rst = true) : decodePorts p = [.reset] := by
  simp [decodePorts, selects_reset, h]

theorem decodePorts_ne_nil (p : PortIn) : decodePorts p ≠ [] := by
  simp only [decodePorts, byteGroup, rearmGroup, configGroup, selects_reset, selects_idle, selects_byte,
    selects_byteLast, selects_setUpper, selects_setLower, selects_setThresholds, selects_rearm]
  rcases p.rst <;> rcases p.inValid <;> rcases p.inLast <;> rcases p.cfgUpperWe <;> rcases p.cfgLowerWe <;>
    rcases p.rearm <;> simp

/-- Without `rst` a cycle performs no RESET, and every operation it selects is well formed. -/
theorem decodePorts_no_reset {p : PortIn} (h : p.rst = false) :
    ∀ i ∈ decodePorts p, i ≠ .reset ∧ i.wellFormed = true := by
  simp only [decodePorts, byteGroup, rearmGroup, configGroup, selects_reset, selects_idle, selects_byte,
    selects_byteLast, selects_setUpper, selects_setLower, selects_setThresholds, selects_rearm, h]
  rcases p.inValid <;> rcases p.inLast <;> rcases p.cfgUpperWe <;> rcases p.cfgLowerWe <;> rcases p.rearm <;>
    simp [Instr.wellFormed]

theorem decodePorts_wf (p : PortIn) : ∀ i ∈ decodePorts p, i.wellFormed = true := by
  cases h : p.rst
  · exact fun i hi => (decodePorts_no_reset h i hi).2
  · rw [decodePorts_rst h]; simp [Instr.wellFormed]

/-! Which operations complete (R27, R89). -/

theorem exec_process {v : Word} (h : isFinite v = true) : exec (.process v) s = afterReset s (evaluate s v) := by
  simp only [exec, execProcess, h, if_true]

theorem exec_completes (h : s.resetSeen = true) {i : Instr} (hw : i.wellFormed = true) : ∃ t, exec i s = .next t := by
  cases i
  case reset => exact ⟨_, rfl⟩
  case process v => rw [exec_process hw]; exact ⟨_, afterReset_of_seen h⟩
  all_goals exact ⟨_, afterReset_of_seen h⟩

theorem exec_before_reset (h : s.resetSeen = false) {i : Instr} (hw : i.wellFormed = true) (hn : i ≠ .reset) :
    exec i s = .refused .beforeFirstReset := by
  cases i
  case reset => exact absurd rfl hn
  case process v => rw [exec_process hw]; exact afterReset_of_not_seen h
  all_goals exact afterReset_of_not_seen h

end Sys2Proof.Machine
end

