-- ==== Sys2Proof/Laws/Cycle.lean ====
section
/-! SUPPORT. What one cycle can do, said once: `cycleBody` is the composition of R84 as one function of the ports, and
`step_iff` says that a step is it. Then what each part of the composition leaves alone. -/

namespace Sys2Proof.Machine

/-- The byte group of a cycle. -/
def byteStage (p : PortIn) (s : State) : State :=
  if p.inValid then (if p.inLast then clearWindow (acceptByte s p.inData) else acceptByte s p.inData) else s

/-- The rearm group of a cycle. -/
def rearmStage (p : PortIn) (s : State) : State := if p.rearm then setArmed s else s

/-- The config group of a cycle. -/
def configStage (p : PortIn) (s : State) : State :=
  if p.cfgUpperWe then
    if p.cfgLowerWe then writeLower (writeUpper s p.cfgUpperWdata) p.cfgLowerWdata else writeUpper s p.cfgUpperWdata
  else if p.cfgLowerWe then writeLower s p.cfgLowerWdata else s

/-- The operations of a cycle as one function of the ports (R84). -/
def cycleBody (p : PortIn) (s : State) : State :=
  if p.rst then hardReset s else configStage p (rearmStage p (byteStage p s))

theorem execAll_append {a b : List Instr} {s t : State} (h : execAll a s = .next t) : execAll (a ++ b) s = execAll b t := by
  induction a generalizing s with
  | nil => cases h; rfl
  | cons i rest ih =>
    obtain ⟨u, hu, hr⟩ := execAll_cons_eq_next.mp h
    rw [List.cons_append, execAll_cons_next hu]; exact ih hr

theorem execAll_single {i : Instr} {s t : State} (h : exec i s = .next t) : execAll [i] s = .next t := by
  rw [execAll_cons_next h]; rfl

@[simp] theorem byteStage_resetSeen (p : PortIn) (s : State) : (byteStage p s).resetSeen = s.resetSeen := by
  unfold byteStage acceptByte; split <;> (try split) <;> simp
@[simp] theorem rearmStage_resetSeen (p : PortIn) (s : State) : (rearmStage p s).resetSeen = s.resetSeen := by
  unfold rearmStage; split <;> simp

theorem execAll_decodePorts {p : PortIn} {s : State} (h : p.rst = true ∨ s.resetSeen = true) :
    execAll (decodePorts p) s = .next (cycleBody p s) := by
  unfold cycleBody
  cases hr : p.rst
  · have h : s.resetSeen = true := by simpa [hr] using h
    rw [decodePorts_eq p, hr, if_neg Bool.false_ne_true]
    split
    · next hi =>
      simp only [Bool.and_eq_true, Bool.not_eq_true'] at hi
      simp [byteStage, rearmStage, configStage, hi]
      exact execAll_single (afterReset_of_seen h)
    · next hi =>
      have e1 : execAll (byteGroup p) s = .next (byteStage p s) := by
        simp only [byteGroup, selects_byte, selects_byteLast, hr, byteStage]
        rcases p.inValid <;> rcases p.inLast <;> simp
        · rfl
        · rfl
        · exact execAll_single (afterReset_of_seen h)
        · exact execAll_single (afterReset_of_seen h)
      have e2 : execAll (rearmGroup p) (byteStage p s) = .next (rearmStage p (byteStage p s)) := by
        have : (byteStage p s).resetSeen = true := by simpa using h
        simp only [rearmGroup, selects_rearm, hr, rearmStage]
        rcases p.rearm <;> simp
        · rfl
        · exact execAll_single (afterReset_of_seen this)
      have e3 : execAll (configGroup p) (rearmStage p (byteStage p s)) =
          .next (configStage p (rearmStage p (byteStage p s))) := by
        have : (rearmStage p (byteStage p s)).resetSeen = true := by simpa using h
        simp only [configGroup, selects_setUpper, selects_setLower, selects_setThresholds, hr, configStage]
        rcases p.cfgUpperWe <;> rcases p.cfgLowerWe <;> simp
        · rfl
        all_goals exact execAll_single (afterReset_of_seen this)
      rw [List.append_assoc, execAll_append e1, execAll_append e2, e3]; simp
  · rw [decodePorts_rst hr]; rfl

/-- The cycle that a reset block, or a RESET, performs. -/
theorem cycle_of {lat : Nat} {s : State} (h : (nextPorts s).rst = true ∨ s.resetSeen = true) :
    cycle lat s = .next (endCycle lat (cycleBody (nextPorts s) (beginCycle s))) :=
  cycle_eq_next.mpr ⟨_, execAll_decodePorts (by simpa using h), rfl⟩

/-- Everything a cycle can do. -/
theorem cycle_cases {lat : Nat} {s t : State} :
    cycle lat s = .next t ↔
      ((nextPorts s).rst = true ∨ s.resetSeen = true) ∧ t = endCycle lat (cycleBody (nextPorts s) (beginCycle s)) := by
  constructor
  · intro h
    have hr : (nextPorts s).rst = true ∨ s.resetSeen = true := by
      by_contra hn
      push Not at hn
      have := decodePorts_no_reset (p := nextPorts s) (by simpa using hn.1)
      rcases e : decodePorts (nextPorts s) with _ | ⟨i, rest⟩
      · exact absurd e (decodePorts_ne_nil _)
      · have hi := this i (by simp [e])
        simp only [cycle, e, execAll] at h
        rw [exec_before_reset (s := beginCycle s) (by simpa using hn.2) hi.2 hi.1] at h
        cases h
    refine ⟨hr, ?_⟩
    rw [cycle_of hr] at h; cases h; rfl
  · rintro ⟨h, rfl⟩; exact cycle_of h

theorem step_of {s : State} (h : (nextPorts s).rst = true ∨ s.resetSeen = true) :
    step s = .next (endCycle Config.decLatency (cycleBody (nextPorts s) (beginCycle s))) := cycle_of h

/-- Everything a step can do. -/
theorem step_iff {s t : State} :
    step s = .next t ↔
      ((nextPorts s).rst = true ∨ s.resetSeen = true) ∧
        t = endCycle Config.decLatency (cycleBody (nextPorts s) (beginCycle s)) := cycle_cases

/-! What each group leaves alone. -/

variable (p : PortIn) (s : State)

@[simp] theorem rearmStage_window : (rearmStage p s).window = s.window := by
  unfold rearmStage; split <;> rfl
@[simp] theorem rearmStage_upper : (rearmStage p s).upper = s.upper := by
  unfold rearmStage; split <;> rfl
@[simp] theorem rearmStage_lower : (rearmStage p s).lower = s.lower := by
  unfold rearmStage; split <;> rfl
@[simp] theorem rearmStage_cycleSample : (rearmStage p s).cycleSample = s.cycleSample := by
  unfold rearmStage; split <;> rfl
@[simp] theorem rearmStage_cycleKick : (rearmStage p s).cycleKick = s.cycleKick := by
  unfold rearmStage; split <;> rfl
@[simp] theorem rearmStage_pipe : (rearmStage p s).pipe = s.pipe := by
  unfold rearmStage; split <;> rfl
@[simp] theorem rearmStage_inputs : (rearmStage p s).inputs = s.inputs := by
  unfold rearmStage; split <;> rfl
@[simp] theorem rearmStage_freeCount : (rearmStage p s).freeCount = s.freeCount := by
  unfold rearmStage; split <;> rfl
theorem rearmStage_armed : (rearmStage p s).armed = if p.rearm = true then true else s.armed := by
  unfold rearmStage; split <;> rfl
@[simp] theorem configStage_window : (configStage p s).window = s.window := by
  unfold configStage; split <;> split <;> rfl
@[simp] theorem configStage_armed : (configStage p s).armed = s.armed := by
  unfold configStage; split <;> split <;> rfl
@[simp] theorem configStage_cycleSample : (configStage p s).cycleSample = s.cycleSample := by
  unfold configStage; split <;> split <;> rfl
@[simp] theorem configStage_cycleKick : (configStage p s).cycleKick = s.cycleKick := by
  unfold configStage; split <;> split <;> rfl
@[simp] theorem configStage_pipe : (configStage p s).pipe = s.pipe := by
  unfold configStage; split <;> split <;> rfl
@[simp] theorem configStage_inputs : (configStage p s).inputs = s.inputs := by
  unfold configStage; split <;> split <;> rfl
@[simp] theorem configStage_resetSeen : (configStage p s).resetSeen = s.resetSeen := by
  unfold configStage; split <;> split <;> rfl
@[simp] theorem configStage_freeCount : (configStage p s).freeCount = s.freeCount := by
  unfold configStage; split <;> split <;> rfl
theorem configStage_upper : (configStage p s).upper =
    if p.cfgUpperWe = true then clampFloor p.cfgUpperWdata upperFloor else s.upper := by
  unfold configStage; split <;> split <;> rfl
theorem configStage_lower : (configStage p s).lower =
    if p.cfgLowerWe = true then clampFloor p.cfgLowerWdata lowerFloor else s.lower := by
  unfold configStage; split <;> split <;> rfl
@[simp] theorem byteStage_upper : (byteStage p s).upper = s.upper := by
  unfold byteStage acceptByte; split <;> (try split) <;> simp
@[simp] theorem byteStage_lower : (byteStage p s).lower = s.lower := by
  unfold byteStage acceptByte; split <;> (try split) <;> simp
@[simp] theorem byteStage_pipe : (byteStage p s).pipe = s.pipe := by
  unfold byteStage acceptByte; split <;> (try split) <;> simp
@[simp] theorem byteStage_inputs : (byteStage p s).inputs = s.inputs := by
  unfold byteStage acceptByte; split <;> (try split) <;> simp

/-- What the byte group can do to the mode and the events of a cycle. -/
theorem byteStage_cases (h1 : s.cycleSample = none) (h2 : s.cycleKick = none) :
    ((byteStage p s).cycleSample = none ∧ (byteStage p s).cycleKick = none ∧ (byteStage p s).armed = s.armed) ∨
    (∃ f, (byteStage p s).cycleSample = some (decodeFrame f) ∧
       (byteStage p s).cycleKick = kickOf s.armed (decodeFrame f).comp s.upper ∧
       (byteStage p s).armed = armedAfter s.armed (decodeFrame f).comp s.upper s.lower ∧ p.inValid = true ∧
       s.window.length + 1 = frameLen ∧ (byteStage p s).window = []) := by
  unfold byteStage acceptByte
  split
  · rcases windowTest_cases (appendByte s p.inData) with ⟨hl, -, e⟩ | ⟨-, -, e⟩ | ⟨-, e⟩ <;> rw [e]
    · right
      refine ⟨frameOf (appendByte s p.inData).window, ?_, ?_, ?_, by assumption, by simpa using hl, ?_⟩ <;> split <;>
        simp [h2]
    · left; split <;> simp [h1, h2]
    · left; split <;> simp [h1, h2]
  · left; exact ⟨h1, h2, rfl⟩

theorem byteStage_window_short (h : s.window.length < frameLen) : (byteStage p s).window.length < frameLen := by
  unfold byteStage
  split
  · split
    · simp [frameLen]
    · exact acceptByte_window_short _ h
  · exact h
end Sys2Proof.Machine
end

