-- ==== Sys2Proof/Laws/Float.lean ====
section
/-! SUPPORT. The rounding of spec/00_scope.md R12: the magnitudes of binary32 grow with their bit fields, `roundQuot` and
`roundSqrt` give the nearest one with ties to even, and rounding is monotone. -/

namespace Sys2Proof.Machine

/-- The magnitude, in multiples of `2^-149`, that a magnitude field stands for. Past infinity's field it goes on as if
there were more exponents. -/
def fieldUnits (m : Nat) : Nat := if m / 2 ^ 23 = 0 then m else (m % 2 ^ 23 + 2 ^ 23) * 2 ^ (m / 2 ^ 23 - 1)

theorem magField_lt (p : Word) : magField p < 2 ^ 31 := (p.extractLsb' 0 31).isLt

theorem magField_eq (p : Word) : magField p = p.toNat % 2 ^ 31 := by simp [magField]

theorem expField_eq (p : Word) : expField p = magField p / 2 ^ 23 := by
  simp only [expField, magField, BitVec.extractLsb'_toNat, Nat.shiftRight_eq_div_pow]
  omega

theorem fracField_eq (p : Word) : fracField p = magField p % 2 ^ 23 := by
  simp only [fracField, magField, BitVec.extractLsb'_toNat, Nat.shiftRight_eq_div_pow]
  omega

theorem magUnits_eq (p : Word) : magUnits p = fieldUnits (magField p) := by
  unfold magUnits fieldUnits
  rw [expField_eq, fracField_eq]
  split
  · omega
  · rfl

theorem fieldUnits_lt_succ (m : Nat) : fieldUnits m < fieldUnits (m + 1) := by
  unfold fieldUnits
  rcases Nat.lt_or_ge (m % 2 ^ 23 + 1) (2 ^ 23) with h | h
  · have e1 : (m + 1) / 2 ^ 23 = m / 2 ^ 23 := by omega
    have e2 : (m + 1) % 2 ^ 23 = m % 2 ^ 23 + 1 := by omega
    rw [e1, e2]
    split
    · omega
    · exact Nat.mul_lt_mul_of_pos_right (by omega) (by positivity)
  · have e1 : (m + 1) / 2 ^ 23 = m / 2 ^ 23 + 1 := by omega
    have e2 : (m + 1) % 2 ^ 23 = 0 := by omega
    have e3 : m % 2 ^ 23 = 2 ^ 23 - 1 := by omega
    rw [e1, e2, e3]
    split
    · next h0 => simp only [h0]; norm_num; omega
    · next h0 =>
      obtain ⟨j, hj⟩ := Nat.exists_eq_succ_of_ne_zero h0
      simp only [hj, Nat.succ_eq_add_one, Nat.add_sub_cancel, if_neg (Nat.succ_ne_zero _), Nat.zero_add]
      rw [pow_succ]
      have : 0 < 2 ^ j := by positivity
      omega

theorem fieldUnits_strictMono : StrictMono fieldUnits := strictMono_nat_of_lt_succ fieldUnits_lt_succ

/-- A field packed from `q` steps of size `2^k` stands for `q * 2^k`, the carry `q = 2^24` included. -/
theorem fieldUnits_packed {k q : Nat} (h : q ≤ 2 ^ 24) (h' : k = 0 ∨ 2 ^ 23 ≤ q) :
    fieldUnits (k * 2 ^ 23 + q) = q * 2 ^ k := by
  unfold fieldUnits
  rcases Nat.lt_or_ge q (2 ^ 23) with h1 | h1
  · have hk : k = 0 := by omega
    subst hk
    rw [if_pos (by omega)]
    simp
  rcases Nat.lt_or_ge q (2 ^ 24) with h2 | h2
  · have e1 : (k * 2 ^ 23 + q) / 2 ^ 23 = k + 1 := by omega
    have e2 : (k * 2 ^ 23 + q) % 2 ^ 23 + 2 ^ 23 = q := by omega
    rw [e1, e2]
    simp
  · have hq : q = 2 ^ 24 := by omega
    have e1 : (k * 2 ^ 23 + q) / 2 ^ 23 = k + 2 := by omega
    have e2 : (k * 2 ^ 23 + q) % 2 ^ 23 = 0 := by omega
    rw [e1, e2, hq, if_neg (by omega)]
    rw [show k + 2 - 1 = k + 1 by omega, pow_succ]
    ring

/-- The significand of a floor: at most 24 bits, and all 24 of them unless the spacing is the smallest. -/
theorem spacing_bounds (x : Nat) :
    x / 2 ^ spacingExp x < 2 ^ 24 ∧ (spacingExp x = 0 ∨ 2 ^ 23 ≤ x / 2 ^ spacingExp x) := by
  unfold spacingExp
  rcases Nat.eq_zero_or_pos x with rfl | hx
  · simp
  have hlo : 2 ^ Nat.log2 x ≤ x := Nat.log2_self_le hx.ne'
  have hhi : x < 2 ^ (Nat.log2 x + 1) := Nat.lt_log2_self
  rcases Nat.lt_or_ge (Nat.log2 x) 23 with h | h
  · rw [show Nat.log2 x - 23 = 0 by omega]
    have : (2 : Nat) ^ (Nat.log2 x + 1) ≤ 2 ^ 23 := Nat.pow_le_pow_right (by norm_num) (by omega)
    simp only [pow_zero, Nat.div_one, true_or, and_true]
    omega
  · obtain ⟨k, hk⟩ := Nat.exists_eq_add_of_le h
    rw [hk, show 23 + k - 23 = k by omega]
    rw [hk] at hlo hhi
    constructor
    · rw [Nat.div_lt_iff_lt_mul (by positivity)]
      calc x < 2 ^ (23 + k + 1) := hhi
        _ = 2 ^ 24 * 2 ^ k := by rw [← pow_add]; congr 1; omega
    · right
      rw [Nat.le_div_iff_mul_le (by positivity), ← pow_add]
      exact hlo

/-- `m` is the field of the magnitude nearest to `x` multiples of `2^-149`, the even one on a tie. -/
def NearestField (x : ℝ) (m : Nat) : Prop :=
  ∀ c, |(fieldUnits m : ℝ) - x| ≤ |(fieldUnits c : ℝ) - x| ∧
    (c ≠ m → |(fieldUnits c : ℝ) - x| = |(fieldUnits m : ℝ) - x| → m % 2 = 0)

/-- Between two neighbouring fields `m` and `m + 1`, the nearer one, or on a tie the even one, is the nearest of all. -/
theorem nearestField_of_between {x : ℝ} {m : Nat} (hlo : (fieldUnits m : ℝ) ≤ x)
    (hhi : x < fieldUnits (m + 1)) :
    (2 * x < fieldUnits m + fieldUnits (m + 1) → NearestField x m) ∧
    ((fieldUnits m + fieldUnits (m + 1) : ℝ) < 2 * x → NearestField x (m + 1)) ∧
    (2 * x = fieldUnits m + fieldUnits (m + 1) → m % 2 = 0 → NearestField x m) ∧
    (2 * x = fieldUnits m + fieldUnits (m + 1) → m % 2 = 1 → NearestField x (m + 1)) := by
  have hm : |(fieldUnits m : ℝ) - x| = x - fieldUnits m := by rw [abs_of_nonpos (by linarith)]; ring
  have hM : |(fieldUnits (m + 1) : ℝ) - x| = fieldUnits (m + 1) - x := abs_of_pos (by linarith)
  have hc : ∀ c, (c = m ∨ c = m + 1) ∨
      (x - fieldUnits m < |(fieldUnits c : ℝ) - x| ∧ c < m) ∨
      (fieldUnits (m + 1) - x < |(fieldUnits c : ℝ) - x| ∧ m + 1 < c) := by
    intro c
    rcases Nat.lt_trichotomy c m with h | h | h
    · right; left
      have : (fieldUnits c : ℝ) < fieldUnits m := by exact_mod_cast fieldUnits_strictMono h
      exact ⟨by rw [abs_of_nonpos (by linarith)]; linarith, h⟩
    · exact .inl (.inl h)
    · rcases Nat.lt_or_ge (m + 1) c with h' | h'
      · right; right
        have : (fieldUnits (m + 1) : ℝ) < fieldUnits c := by exact_mod_cast fieldUnits_strictMono h'
        exact ⟨by rw [abs_of_pos (by linarith)]; linarith, h'⟩
      · exact .inl (.inr (by omega))
  refine ⟨?_, ?_, ?_, ?_⟩
  · intro h c
    rcases hc c with (rfl | rfl) | ⟨h1, -⟩ | ⟨h1, h2⟩
    · exact ⟨le_rfl, fun hne => absurd rfl hne⟩
    · rw [hm, hM]; exact ⟨by linarith, fun _ he => by linarith⟩
    · rw [hm]; exact ⟨h1.le, fun _ he => by linarith⟩
    · rw [hm]; exact ⟨by linarith, fun _ he => by linarith⟩
  · intro h c
    rcases hc c with (rfl | rfl) | ⟨h1, -⟩ | ⟨h1, h2⟩
    · rw [hm, hM]; exact ⟨by linarith, fun _ he => by linarith⟩
    · exact ⟨le_rfl, fun hne => absurd rfl hne⟩
    · rw [hM]; exact ⟨by linarith, fun _ he => by linarith⟩
    · rw [hM]; exact ⟨h1.le, fun _ he => by linarith⟩
  · intro h hpar c
    refine ⟨?_, fun _ _ => hpar⟩
    rcases hc c with (rfl | rfl) | ⟨h1, -⟩ | ⟨h1, h2⟩
    · exact le_rfl
    · rw [hm, hM]; linarith
    · rw [hm]; linarith
    · rw [hm]; linarith
  · intro h hpar c
    refine ⟨?_, fun _ _ => by omega⟩
    rcases hc c with (rfl | rfl) | ⟨h1, -⟩ | ⟨h1, h2⟩
    · rw [hm, hM]; linarith
    · exact le_rfl
    · rw [hM]; linarith
    · rw [hM]; linarith

/-- Rounding is monotone. -/
theorem NearestField.mono {x y : ℝ} {m n : Nat} (hm : NearestField x m) (hn : NearestField y n) (h : x ≤ y) :
    m ≤ n := by
  by_contra hlt
  push Not at hlt
  have hf : (fieldUnits n : ℝ) < fieldUnits m := by exact_mod_cast fieldUnits_strictMono hlt
  have h1 := (hm n).1
  have h2 := (hn m).1
  have hx : (fieldUnits n + fieldUnits m : ℝ) ≤ 2 * x := by
    rcases abs_cases ((fieldUnits m : ℝ) - x) with ⟨e1, _⟩ | ⟨e1, _⟩ <;>
      rcases abs_cases ((fieldUnits n : ℝ) - x) with ⟨e2, _⟩ | ⟨e2, _⟩ <;> rw [e1, e2] at h1 <;> linarith
  have hy : 2 * y ≤ fieldUnits n + fieldUnits m := by
    rcases abs_cases ((fieldUnits m : ℝ) - y) with ⟨e1, _⟩ | ⟨e1, _⟩ <;>
      rcases abs_cases ((fieldUnits n : ℝ) - y) with ⟨e2, _⟩ | ⟨e2, _⟩ <;> rw [e1, e2] at h2 <;> linarith
  have hxy : x = y := by linarith
  have hmid : 2 * x = fieldUnits n + fieldUnits m := by linarith
  have hem : |(fieldUnits m : ℝ) - x| = fieldUnits m - x := abs_of_pos (by linarith)
  have hen : |(fieldUnits n : ℝ) - x| = x - fieldUnits n := by rw [abs_of_neg (by linarith)]; ring
  have heq : |(fieldUnits n : ℝ) - x| = |(fieldUnits m : ℝ) - x| := by rw [hem, hen]; linarith
  have pm := (hm n).2 hlt.ne heq
  have pn := (hn m).2 hlt.ne' (by rw [← hxy]; exact heq.symm)
  -- both even, so a field lies strictly between them and is nearer
  have hbetween : n < n + 1 ∧ n + 1 < m := by omega
  have g1 : (fieldUnits n : ℝ) < fieldUnits (n + 1) := by exact_mod_cast fieldUnits_strictMono hbetween.1
  have g2 : (fieldUnits (n + 1) : ℝ) < fieldUnits m := by exact_mod_cast fieldUnits_strictMono hbetween.2
  have g3 := (hm (n + 1)).1
  rw [hem] at g3
  rcases abs_cases ((fieldUnits (n + 1) : ℝ) - x) with ⟨e, _⟩ | ⟨e, _⟩ <;> rw [e] at g3 <;> linarith

/-- Rounding has one result. -/
theorem NearestField.unique {x : ℝ} {m n : Nat} (hm : NearestField x m) (hn : NearestField x n) : m = n :=
  Nat.le_antisymm (hm.mono hn le_rfl) (hn.mono hm le_rfl)

/-- A representable magnitude is its own rounding. -/
theorem nearestField_self (m : Nat) : NearestField (fieldUnits m) m := by
  intro c
  refine ⟨by simp, fun hne he => ?_⟩
  rw [sub_self, abs_zero, abs_eq_zero, sub_eq_zero] at he
  exact absurd (fieldUnits_strictMono.injective (by exact_mod_cast he)) hne

theorem tieToEven_lt (q : Nat) : tieToEven q .lt = q := rfl

theorem tieToEven_gt (q : Nat) : tieToEven q .gt = q + 1 := rfl

theorem tieToEven_even {q : Nat} (h : q % 2 = 0) : tieToEven q .eq = q := by rw [tieToEven, h, Nat.add_zero]

theorem tieToEven_odd {q : Nat} (h : q % 2 = 1) : tieToEven q .eq = q + 1 := by rw [tieToEven, h]

/-- The field `roundQuot` computes before it is capped at infinity's. -/
def rawQuot (n d : Nat) : Nat :=
  spacingExp (n / d) * 2 ^ 23 +
    tieToEven (n / (d * 2 ^ spacingExp (n / d)))
      (compare (2 * (n % (d * 2 ^ spacingExp (n / d)))) (d * 2 ^ spacingExp (n / d)))

theorem roundQuot_eq (n d : Nat) : roundQuot n d = min (rawQuot n d) infMag := rfl

/-- `roundQuot` rounds `n / d` to nearest, ties to even, below its cap. -/
theorem rawQuot_nearest (n : Nat) {d : Nat} (hd : 0 < d) : NearestField ((n : ℝ) / d) (rawQuot n d) := by
  obtain ⟨hq, hk⟩ := spacing_bounds (n / d)
  unfold rawQuot
  generalize spacingExp (n / d) = k at hq hk ⊢
  rw [Nat.div_div_eq_div_mul] at hq hk
  have hstep : 0 < d * 2 ^ k := by positivity
  have hsum : d * 2 ^ k * (n / (d * 2 ^ k)) + n % (d * 2 ^ k) = n := Nat.div_add_mod n (d * 2 ^ k)
  have hr : n % (d * 2 ^ k) < d * 2 ^ k := Nat.mod_lt _ hstep
  generalize n / (d * 2 ^ k) = q at hq hk hsum ⊢
  generalize n % (d * 2 ^ k) = r at hsum hr ⊢
  obtain ⟨m, hm⟩ : ∃ m, m = k * 2 ^ 23 + q := ⟨_, rfl⟩
  have f0 : fieldUnits m = q * 2 ^ k := hm ▸ fieldUnits_packed (by omega) hk
  have f1 : fieldUnits (m + 1) = (q + 1) * 2 ^ k := by
    rw [hm, Nat.add_assoc]; exact fieldUnits_packed (by omega) (by omega)
  have hd' : (0 : ℝ) < d := by exact_mod_cast hd
  have hsumR : (d : ℝ) * 2 ^ k * q + r = n := by exact_mod_cast hsum
  have hx : (n : ℝ) / d = q * 2 ^ k + r / d := by rw [← hsumR]; field_simp
  have hrR : (r : ℝ) / d < 2 ^ k := by
    rw [div_lt_iff₀ hd']; have : (r : ℝ) < d * 2 ^ k := by exact_mod_cast hr
    linarith
  have hr0 : (0 : ℝ) ≤ r / d := by positivity
  have b := nearestField_of_between (x := (n : ℝ) / d) (m := m)
    (by rw [f0, hx]; push_cast; linarith) (by rw [f1, hx]; push_cast; linarith)
  rw [f0, f1, hx] at b
  push_cast at b
  obtain ⟨bl, bg, be, bo⟩ := b
  rw [hx]
  rcases hcmp : compare (2 * r) (d * 2 ^ k) with _ | _ | _
  · rw [Nat.compare_eq_lt] at hcmp
    rw [tieToEven_lt, ← hm]
    refine bl ?_
    have : (2 : ℝ) * r < d * 2 ^ k := by exact_mod_cast hcmp
    have : 2 * ((r : ℝ) / d) < 2 ^ k := by rw [← mul_div_assoc, div_lt_iff₀ hd']; linarith
    linarith
  · rw [Nat.compare_eq_eq] at hcmp
    have : (2 : ℝ) * r = d * 2 ^ k := by exact_mod_cast hcmp
    have ht : 2 * ((r : ℝ) / d) = 2 ^ k := by rw [← mul_div_assoc, div_eq_iff hd'.ne']; linarith
    rcases Nat.mod_two_eq_zero_or_one q with hp | hp
    · rw [tieToEven_even hp, ← hm]
      exact be (by linarith) (by omega)
    · rw [tieToEven_odd hp, ← Nat.add_assoc, ← hm]
      exact bo (by linarith) (by omega)
  · rw [Nat.compare_eq_gt] at hcmp
    rw [tieToEven_gt, ← Nat.add_assoc, ← hm]
    refine bg ?_
    have : (d : ℝ) * 2 ^ k < 2 * r := by exact_mod_cast hcmp
    have : (2 : ℝ) ^ k < 2 * ((r : ℝ) / d) := by rw [← mul_div_assoc, lt_div_iff₀ hd']; linarith
    linarith

/-- The bit-by-bit square root keeps its root below the true one and closes in on it. -/
theorem isqrtFrom_spec (n : Nat) : ∀ bits r, r * r ≤ n → n < (r + 2 ^ bits) * (r + 2 ^ bits) →
    isqrtFrom n bits r * isqrtFrom n bits r ≤ n ∧ n < (isqrtFrom n bits r + 1) * (isqrtFrom n bits r + 1)
  | 0, r, h1, h2 => ⟨h1, by simpa [isqrtFrom] using h2⟩
  | bits + 1, r, h1, h2 => by
    unfold isqrtFrom
    split
    · next h => exact isqrtFrom_spec n bits _ h (by rw [pow_succ] at h2; convert h2 using 2 <;> ring)
    · next h => exact isqrtFrom_spec n bits _ h1 (by omega)

/-- `isqrt` is the integer square root. -/
theorem isqrt_spec (n : Nat) : isqrt n * isqrt n ≤ n ∧ n < (isqrt n + 1) * (isqrt n + 1) := by
  refine isqrtFrom_spec n _ 0 (by simp) ?_
  have h : n < 2 ^ (Nat.log2 n + 1) := Nat.lt_log2_self
  calc n < 2 ^ (Nat.log2 n + 1) := h
    _ ≤ 2 ^ ((Nat.log2 n / 2 + 1) + (Nat.log2 n / 2 + 1)) := Nat.pow_le_pow_right (by norm_num) (by omega)
    _ = _ := by rw [pow_add]; simp

/-- The integer square root of `n / 4^k` is the integer square root of `n`, divided by `2^k`. -/
theorem isqrt_div (n k : Nat) : isqrt (n / 4 ^ k) = isqrt n / 2 ^ k := by
  obtain ⟨a1, a2⟩ := isqrt_spec (n / 4 ^ k)
  obtain ⟨b1, b2⟩ := isqrt_spec n
  have h4 : (4 : Nat) ^ k = 2 ^ k * 2 ^ k := by rw [← mul_pow]; norm_num
  have hp : 0 < 2 ^ k := by positivity
  generalize isqrt (n / 4 ^ k) = a at a1 a2 ⊢
  generalize isqrt n = b at b1 b2 ⊢
  rw [Nat.le_div_iff_mul_le (by positivity), h4] at a1
  rw [Nat.div_lt_iff_lt_mul (by positivity), h4] at a2
  apply Nat.le_antisymm
  · rw [Nat.le_div_iff_mul_le hp]
    by_contra hlt
    push Not at hlt
    have : (b + 1) * (b + 1) ≤ (a * 2 ^ k) * (a * 2 ^ k) := Nat.mul_le_mul hlt hlt
    nlinarith
  · rw [← Nat.lt_succ_iff, Nat.div_lt_iff_lt_mul hp]
    by_contra hle
    push Not at hle
    have : ((a + 1) * 2 ^ k) * ((a + 1) * 2 ^ k) ≤ b * b := Nat.mul_le_mul hle hle
    nlinarith

/-- The field `roundSqrt` computes before it is capped at infinity's. -/
def rawSqrt (n : Nat) : Nat :=
  spacingExp (isqrt n) * 2 ^ 23 +
    tieToEven (isqrt (n / 4 ^ spacingExp (isqrt n)))
      (compare (4 * n) ((2 * isqrt (n / 4 ^ spacingExp (isqrt n)) + 1) *
        (2 * isqrt (n / 4 ^ spacingExp (isqrt n)) + 1) * 4 ^ spacingExp (isqrt n)))

theorem roundSqrt_eq (n : Nat) : roundSqrt n = min (rawSqrt n) infMag := rfl

/-- `roundSqrt` rounds the square root of `n` to nearest, ties to even, below its cap. -/
theorem rawSqrt_nearest (n : Nat) : NearestField (Real.sqrt n) (rawSqrt n) := by
  obtain ⟨hq, hk⟩ := spacing_bounds (isqrt n)
  unfold rawSqrt
  generalize spacingExp (isqrt n) = k at hq hk ⊢
  rw [← isqrt_div] at hq hk
  obtain ⟨a1, a2⟩ := isqrt_spec (n / 4 ^ k)
  have h4 : (4 : Nat) ^ k = 2 ^ k * 2 ^ k := by rw [← mul_pow]; norm_num
  generalize isqrt (n / 4 ^ k) = q at hq hk a1 a2 ⊢
  rw [Nat.le_div_iff_mul_le (by positivity), h4] at a1
  rw [Nat.div_lt_iff_lt_mul (by positivity), h4] at a2
  obtain ⟨m, hm⟩ : ∃ m, m = k * 2 ^ 23 + q := ⟨_, rfl⟩
  have f0 : fieldUnits m = q * 2 ^ k := hm ▸ fieldUnits_packed (by omega) hk
  have f1 : fieldUnits (m + 1) = (q + 1) * 2 ^ k := by
    rw [hm, Nat.add_assoc]; exact fieldUnits_packed (by omega) (by omega)
  have hs : Real.sqrt n * Real.sqrt n = n := Real.mul_self_sqrt (by positivity)
  have hs0 := Real.sqrt_nonneg n
  have lo : (q * 2 ^ k : ℝ) ≤ Real.sqrt n :=
    Real.le_sqrt_of_sq_le (by have : ((q * q * (2 ^ k * 2 ^ k) : ℕ) : ℝ) ≤ n := by exact_mod_cast a1
                              push_cast at this; nlinarith)
  have hi : Real.sqrt n < (q + 1) * 2 ^ k := by
    rw [Real.sqrt_lt' (by positivity)]
    have : (n : ℝ) < (((q + 1) * (q + 1) * (2 ^ k * 2 ^ k) : ℕ) : ℝ) := by exact_mod_cast a2
    push_cast at this; nlinarith
  have b := nearestField_of_between (x := Real.sqrt n) (m := m)
    (by rw [f0]; push_cast; exact lo) (by rw [f1]; push_cast; exact hi)
  rw [f0, f1] at b
  push_cast at b
  obtain ⟨bl, bg, be, bo⟩ := b
  have hmid : (q * 2 ^ k + (q + 1) * 2 ^ k : ℝ) = (2 * q + 1) * 2 ^ k := by ring
  rw [hmid] at bl bg be bo
  have hsq : ((2 * q + 1) * (2 * q + 1) * 4 ^ k : ℝ) = ((2 * q + 1) * 2 ^ k) ^ 2 := by
    rw [show (4 : ℝ) = 2 * 2 by norm_num, mul_pow]; ring
  have hm0 : (0 : ℝ) ≤ (2 * q + 1) * 2 ^ k := by positivity
  have hn4 : (4 * n : ℝ) = (2 * Real.sqrt n) ^ 2 := by rw [mul_pow, sq (Real.sqrt n), hs]; ring
  rcases hcmp : compare (4 * n) ((2 * q + 1) * (2 * q + 1) * 4 ^ k) with _ | _ | _
  · rw [Nat.compare_eq_lt] at hcmp
    have : (4 * n : ℝ) < (2 * q + 1) * (2 * q + 1) * 4 ^ k := by exact_mod_cast hcmp
    rw [hsq, hn4] at this
    rw [tieToEven_lt, ← hm]
    exact bl (lt_of_pow_lt_pow_left₀ 2 hm0 this)
  · rw [Nat.compare_eq_eq] at hcmp
    have : (4 * n : ℝ) = (2 * q + 1) * (2 * q + 1) * 4 ^ k := by exact_mod_cast hcmp
    rw [hsq, hn4] at this
    have ht : 2 * Real.sqrt n = (2 * q + 1) * 2 ^ k := by
      rwa [sq_eq_sq₀ (by positivity) hm0] at this
    rcases Nat.mod_two_eq_zero_or_one q with hp | hp
    · rw [tieToEven_even hp, ← hm]
      exact be ht (by omega)
    · rw [tieToEven_odd hp, ← Nat.add_assoc, ← hm]
      exact bo ht (by omega)
  · rw [Nat.compare_eq_gt] at hcmp
    have : ((2 * q + 1) * (2 * q + 1) * 4 ^ k : ℝ) < 4 * n := by exact_mod_cast hcmp
    rw [hsq, hn4] at this
    rw [tieToEven_gt, ← Nat.add_assoc, ← hm]
    exact bg (lt_of_pow_lt_pow_left₀ 2 (by positivity) this)

/-- `roundQuot` is monotone in the quotient. -/
theorem roundQuot_mono {n d n' d' : Nat} (hd : 0 < d) (hd' : 0 < d') (h : n * d' ≤ n' * d) :
    roundQuot n d ≤ roundQuot n' d' := by
  have hx : (n : ℝ) / d ≤ n' / d' := by
    rw [div_le_div_iff₀ (by exact_mod_cast hd) (by exact_mod_cast hd')]
    exact_mod_cast h
  have := (rawQuot_nearest n hd).mono (rawQuot_nearest n' hd') hx
  rw [roundQuot_eq, roundQuot_eq]
  omega

/-- `roundSqrt` is monotone. -/
theorem roundSqrt_mono {n n' : Nat} (h : n ≤ n') : roundSqrt n ≤ roundSqrt n' := by
  have := (rawSqrt_nearest n).mono (rawSqrt_nearest n') (Real.sqrt_le_sqrt (by exact_mod_cast h))
  rw [roundSqrt_eq, roundSqrt_eq]
  omega

/-- A quotient that is itself a magnitude is rounded to its own field. -/
theorem rawQuot_exact {n d m : Nat} (hd : 0 < d) (h : n = fieldUnits m * d) : rawQuot n d = m := by
  have hx : (n : ℝ) / d = fieldUnits m := by
    rw [h, Nat.cast_mul, mul_div_assoc, div_self (by exact_mod_cast hd.ne'), mul_one]
  exact (hx ▸ rawQuot_nearest n hd).unique (nearestField_self m)

/-! Signs and fields of packed patterns. -/

theorem withSign_toNat (neg : Bool) {m : Nat} (h : m < 2 ^ 31) : (withSign neg m).toNat = neg.toNat * 2 ^ 31 + m := by
  unfold withSign
  rw [BitVec.toNat_append, BitVec.toNat_ofNat, Nat.mod_eq_of_lt h, ← Nat.shiftLeft_add_eq_or_of_lt h,
    Nat.shiftLeft_eq, BitVec.toNat_ofBool]

theorem magField_withSign (neg : Bool) {m : Nat} (h : m < 2 ^ 31) : magField (withSign neg m) = m := by
  rw [magField_eq, withSign_toNat neg h]
  omega

theorem signBit_withSign (neg : Bool) (m : Nat) : signBit (withSign neg m) = neg := by
  unfold signBit withSign
  rw [BitVec.getLsbD_append]
  cases neg <;> rfl

theorem roundQuot_le (n d : Nat) : roundQuot n d ≤ infMag := Nat.min_le_right ..

theorem roundSqrt_le (n : Nat) : roundSqrt n ≤ infMag := Nat.min_le_right ..

end Sys2Proof.Machine
end

