-- ==== Sys2Proof/Laws/PerInstr.lean ====
section
/-! SUPPORT. A law of every operation, one lemma per constructor of `Instr`: the encoder uses no don't-care form. -/

namespace Sys2Proof.Laws.CanonicalCode

/-- The code of the operation, if it has one, is canonical: a window is full (R45), and the port values of R49's don't-care
forms are 0: `in_last` without `in_valid`, and every operand whose strobe is 0. -/
def Statement (i : Instr) : Prop :=
  (∀ w, encode i = some (.window w) → w.length = Machine.frameLen) ∧
  (∀ p, encode i = some (.ports p) →
    (p.inValid = false → p.inLast = false ∧ p.inData = 0#8) ∧ (p.cfgUpperWe = false → p.cfgUpperWdata = 0#32) ∧
    (p.cfgLowerWe = false → p.cfgLowerWdata = 0#32))

/-- The shape shared by the operations that a control vector selects. -/
theorem of_ports {i : Instr} {q : PortIn} (h : encode i = some (.ports q))
    (hv : q.inValid = false → q.inLast = false ∧ q.inData = 0#8) (hu : q.cfgUpperWe = false → q.cfgUpperWdata = 0#32)
    (hl : q.cfgLowerWe = false → q.cfgLowerWdata = 0#32) : Statement i := by
  refine ⟨fun w hw => ?_, fun p hp => ?_⟩
  · rw [h] at hw; cases hw
  · rw [h] at hp; cases hp; exact ⟨hv, hu, hl⟩

theorem reset : Statement .reset := of_ports rfl (fun _ => ⟨rfl, rfl⟩) (fun _ => rfl) (fun _ => rfl)

theorem idle : Statement .idle := of_ports rfl (fun _ => ⟨rfl, rfl⟩) (fun _ => rfl) (fun _ => rfl)

theorem byte (b : Byte) : Statement (.byte b) := of_ports rfl nofun (fun _ => rfl) (fun _ => rfl)

theorem byteLast (b : Byte) : Statement (.byteLast b) := of_ports rfl nofun (fun _ => rfl) (fun _ => rfl)

theorem setUpper (p : Word) : Statement (.setUpper p) := of_ports rfl (fun _ => ⟨rfl, rfl⟩) nofun (fun _ => rfl)

theorem setLower (p : Word) : Statement (.setLower p) := of_ports rfl (fun _ => ⟨rfl, rfl⟩) (fun _ => rfl) nofun

theorem setThresholds (pu pl : Word) : Statement (.setThresholds pu pl) := of_ports rfl (fun _ => ⟨rfl, rfl⟩) nofun nofun

theorem rearm : Statement .rearm := of_ports rfl (fun _ => ⟨rfl, rfl⟩) (fun _ => rfl) (fun _ => rfl)

theorem frameDecode (f : RawFrame) : Statement (.frameDecode f) := ⟨fun _ hw => by cases hw; rfl, nofun⟩

theorem windowSkip (w0 w1 : Byte) : Statement (.windowSkip w0 w1) := ⟨fun _ hw => by cases hw; rfl, nofun⟩

theorem process (v : Word) : Statement (.process v) := ⟨nofun, nofun⟩

end Sys2Proof.Laws.CanonicalCode
end

