-- ==== Sys2Proof/Laws/Run.lean ====
section
/-! SUPPORT. Runs of several cycles, and the delivery of a buffer byte by byte: what one cycle does to the window and the
events. -/

namespace Sys2Proof.Machine

/-- What a step can do to the mode, the events and the window: a RESET cycle, a cycle without a sample, or a cycle with
one. -/
theorem step_events_cases {s t : State} (h : step s = .next t) :
    ((nextPorts s).rst = true ∧ t.cycleSample = none ∧ t.cycleKick = none ∧ t.armed = true ∧ t.window = []) ∨
    ((nextPorts s).rst = false ∧ s.resetSeen = true ∧ t.cycleSample = none ∧ t.cycleKick = none ∧
      t.armed = (if (nextPorts s).rearm = true then true else s.armed)) ∨
    ((nextPorts s).rst = false ∧ s.resetSeen = true ∧ ∃ f, t.cycleSample = some (decodeFrame f) ∧
      t.cycleKick = kickOf s.armed (decodeFrame f).comp s.upper ∧
      t.armed = (if (nextPorts s).rearm = true then true
        else armedAfter s.armed (decodeFrame f).comp s.upper s.lower) ∧
      (nextPorts s).inValid = true ∧ s.window.length + 1 = frameLen ∧ t.window = []) := by
  obtain ⟨hr, rfl⟩ := step_iff.mp h
  unfold cycleBody
  cases hrst : (nextPorts s).rst
  · right
    have hs : s.resetSeen = true := by simpa [hrst] using hr
    rcases byteStage_cases (nextPorts s) (beginCycle s) rfl rfl with ⟨a, b, c⟩ | ⟨f, a, b, c, d, e, g⟩
    · left; simp [a, b, c, rearmStage_armed, hs]
    · right; refine ⟨rfl, hs, f, ?_⟩; simp [a, b, c, d, rearmStage_armed, g]; simpa using e
  · left; simp

/-! Runs. -/

theorem runs_snoc {n : Nat} {s u v : State} (h : Runs n s u) (h' : step u = .next v) : Runs (n+1) s v := by
  induction h with
  | zero => exact .succ h' (.zero _)
  | succ h1 _ ih => exact .succ h1 (ih h')

theorem runs_append {m n : Nat} {s t u : State} (h : Runs m s t) (h' : Runs n t u) : Runs (m+n) s u := by
  induction h with
  | zero => simpa using h'
  | succ h1 _ ih => rw [Nat.add_right_comm]; exact .succ h1 (ih h')

theorem samplesIn_append : ∀ (m n : Nat) (s u : State), Runs m s u →
    samplesIn (m+n) s = samplesIn m s ++ samplesIn n u
  | 0, n, s, u, h => by cases h; simp [samplesIn]
  | m+1, n, s, u, h => by
    cases h with
    | succ h1 h2 =>
      rw [Nat.add_right_comm]
      simp only [samplesIn, h1]
      rw [samplesIn_append m n _ _ h2, List.append_assoc]

/-! Buffers (R65). -/

theorem scanFrom_short (fuel : Nat) {l : List Byte} (h : l.length < 20) : scanFrom fuel l = [] := by
  cases fuel with
  | zero => rfl
  | succ n => simp only [scanFrom, h, if_true]

theorem restFrom_short (fuel : Nat) {l : List Byte} (h : l.length < 20) : restFrom fuel l = l := by
  cases fuel with
  | zero => rfl
  | succ n => simp only [restFrom, h, if_true]

/-- A frame at the scan position is decoded and passed over. -/
theorem scanFrom_frame (f : RawFrame) (fuel : Nat) (rest : List Byte) :
    scanFrom (fuel+1) (frameBytes f ++ rest) = decodeFrame f :: scanFrom fuel rest := by
  rw [scanFrom, if_neg (by simp), if_pos ⟨rfl, rfl⟩]
  have h20 := frameBytes_length f
  rw [List.take_append_of_le_length (by omega), List.drop_append_of_le_length (by omega), ← h20, List.take_length,
    List.drop_length, frameOf_frameBytes]
  rfl

/-- What the acceptance of one byte does to a window short of a frame. -/
theorem acceptByte_cases (s : State) (b : Byte) (hl : s.window.length < 20) (hn : s.cycleSample = none) :
    ((s.window ++ [b]).length < 20 ∧ (acceptByte s b).window = s.window ++ [b] ∧ (acceptByte s b).cycleSample = none) ∨
    ((s.window ++ [b]).length = 20 ∧ ((s.window ++ [b]).getD 0 0#8 = 0x55#8 ∧ (s.window ++ [b]).getD 1 0#8 = 0x61#8) ∧
      (acceptByte s b).window = [] ∧ (acceptByte s b).cycleSample = some (decodeFrame (frameOf (s.window ++ [b])))) ∨
    ((s.window ++ [b]).length = 20 ∧
      ¬ ((s.window ++ [b]).getD 0 0#8 = 0x55#8 ∧ (s.window ++ [b]).getD 1 0#8 = 0x61#8) ∧
      (acceptByte s b).window = (s.window ++ [b]).tail ∧ (acceptByte s b).cycleSample = none) := by
  unfold acceptByte
  rcases windowTest_cases (appendByte s b) with ⟨h1, h2, e⟩ | ⟨h1, h2, e⟩ | ⟨h1, e⟩
  · right; left
    exact ⟨h1, (isHeader_iff _ _).mp h2, by rw [e]; rfl, by rw [e]; rfl⟩
  · right; right
    exact ⟨h1, by rw [← isHeader_iff]; simpa using h2, by rw [e]; rfl, by rw [e]; simpa using hn⟩
  · left
    refine ⟨?_, by rw [e]; rfl, by rw [e]; simpa using hn⟩
    have : (s.window ++ [b]).length ≠ 20 := h1
    simp at this ⊢; omega

/-- A cycle that accepts a byte, whatever its other strobes are. -/
theorem step_of_accepting {s : State} {p : PortIn} {rest : List PortIn} (hs : s.resetSeen = true)
    (hi : s.inputs = p :: rest) (hr : p.rst = false) (hv : p.inValid = true) :
    ∃ t, step s = .next t ∧ t.inputs = rest ∧ t.resetSeen = true ∧
      t.window = (if p.inLast = true then [] else (acceptByte (beginCycle s) p.inData).window) ∧
      t.cycleSample = (acceptByte (beginCycle s) p.inData).cycleSample := by
  have hp : nextPorts s = p := by rw [nextPorts, hi]; rfl
  refine ⟨_, step_of (.inr hs), ?_⟩
  rw [hp]
  cases hl : p.inLast <;> simp [cycleBody, byteStage, acceptByte, hr, hv, hl, hi, hs]

/-- A cycle without a byte, whatever its other strobes are. -/
theorem step_of_waiting {s : State} {p : PortIn} {rest : List PortIn} (hs : s.resetSeen = true)
    (hi : s.inputs = p :: rest) (hr : p.rst = false) (hv : p.inValid = false) :
    ∃ t, step s = .next t ∧ t.inputs = rest ∧ t.resetSeen = true ∧ t.window = s.window ∧ t.cycleSample = none := by
  have hp : nextPorts s = p := by rw [nextPorts, hi]; rfl
  refine ⟨_, step_of (.inr hs), ?_⟩
  rw [hp]
  simp [cycleBody, byteStage, hr, hv, hi, hs]

/-! Deliveries: the bytes accepted in each prefix. -/

@[simp] theorem acceptedBytes_nil : acceptedBytes [] = [] := rfl

theorem acceptedBytes_wait {p : PortIn} (ps : List PortIn) (h : p.inValid = false) :
    acceptedBytes (p :: ps) = acceptedBytes ps := by simp [acceptedBytes, h]

theorem acceptedBytes_byte {p : PortIn} (ps : List PortIn) (h : p.inValid = true) :
    acceptedBytes (p :: ps) = p.inData :: acceptedBytes ps := by simp [acceptedBytes, h]

theorem Delivery.ne_nil {buffer : List Byte} {ps : List PortIn} (h : Delivery buffer ps) : buffer ≠ [] := by
  induction h with
  | wait _ _ _ ih => exact ih
  | byte => exact List.cons_ne_nil _ _
  | last => exact List.cons_ne_nil _ _

end Sys2Proof.Machine
end

