-- ==== Sys2Proof/Laws/Value.lean ====
section
/-! SUPPORT. The bridge from patterns to values (spec/00_scope.md R12): what the fields of a pattern say of its value, what
the comparisons say of two values, and when a packed field is a rounded number. -/

set_option exponentiation.threshold 600

namespace Sys2Proof.Machine

/-! Values and fields of finite patterns (R12). -/

theorem isFinite_iff (p : Word) : isFinite p = true ↔ magField p < infMag := by
  have := magField_lt p
  simp only [isFinite, expField_eq, infMag, bne_iff_ne, ne_eq]
  omega

theorem isFinite_withSign (neg : Bool) {m : Nat} (h : m < infMag) : isFinite (withSign neg m) = true := by
  rw [isFinite_iff, magField_withSign neg (by unfold infMag at h; omega)]; exact h

theorem not_nan_of_finite {p : Word} (h : isFinite p = true) : isNaN p = false ∧ isInf p = false := by
  simp only [isFinite, bne_iff_ne, ne_eq] at h
  simp [isNaN, isInf, h]

theorem units_eq (p : Word) : units p = if signBit p then -(fieldUnits (magField p) : Int) else fieldUnits (magField p) := by
  simp only [units, magUnits_eq]

theorem units_withSign (neg : Bool) {m : Nat} (h : m < infMag) :
    units (withSign neg m) = if neg then -(fieldUnits m : Int) else fieldUnits m := by
  rw [units_eq, signBit_withSign, magField_withSign neg (by unfold infMag at h; omega)]

theorem fieldUnits_zero : fieldUnits 0 = 0 := by simp [fieldUnits]

theorem fieldUnits_infMag : fieldUnits infMag = 2 ^ 277 := by decide +kernel

theorem fieldUnits_maxMag : fieldUnits (infMag - 1) = 2 ^ 277 - 2 ^ 253 := by decide +kernel

theorem valueOf_cast (p : Word) : ((valueOf p : ℚ) : ℝ) =
    (if signBit p then -(fieldUnits (magField p) : ℝ) else fieldUnits (magField p)) / 2 ^ 149 := by
  simp only [valueOf, units_eq]
  split <;> push_cast <;> rfl

/-! The comparisons order values. -/

theorem fieldUnits_lt_iff {a b : Nat} : fieldUnits a < fieldUnits b ↔ a < b := fieldUnits_strictMono.lt_iff_lt

theorem orderKey_lt_iff {a b : Word} : orderKey a < orderKey b ↔ units a < units b := by
  simp only [orderKey, units_eq]
  have h1 := @fieldUnits_lt_iff (magField a) (magField b)
  have h2 := @fieldUnits_lt_iff (magField b) (magField a)
  have h3 := @fieldUnits_lt_iff 0 (magField a)
  have h4 := @fieldUnits_lt_iff 0 (magField b)
  rw [fieldUnits_zero] at h3 h4
  cases signBit a <;> cases signBit b <;> simp <;> omega

theorem valueOf_lt {a b : Word} : valueOf a < valueOf b ↔ units a < units b := by
  simp only [valueOf]
  rw [div_lt_div_iff_of_pos_right (by positivity)]
  norm_cast

theorem units_le_iff_orderKey {a b : Word} : units a ≤ units b ↔ orderKey a ≤ orderKey b := by
  rw [← not_lt, ← not_lt, orderKey_lt_iff]

theorem gt32_iff {a b : Word} : gt32 a b = true ↔ isNaN a = false ∧ isNaN b = false ∧ orderKey b < orderKey a := by
  simp [gt32, and_assoc]

theorem lt32_iff {a b : Word} : lt32 a b = true ↔ isNaN a = false ∧ isNaN b = false ∧ orderKey a < orderKey b := by
  simp [lt32, and_assoc]

theorem ge32_iff {a b : Word} : ge32 a b = true ↔ isNaN a = false ∧ isNaN b = false ∧ orderKey b ≤ orderKey a := by
  simp [ge32, and_assoc]

/-- A pattern that is not NaN is its place in the order and its sign. -/
theorem eq_of_orderKey {p q : Word} (h : orderKey p = orderKey q) (hs : signBit p = signBit q) : p = q := by
  apply BitVec.eq_of_toNat_eq
  have h1 := magField_eq p; have h2 := magField_eq q
  have h3 : p.toNat.testBit 31 = signBit p := rfl
  have h4 : q.toNat.testBit 31 = signBit q := rfl
  rw [Nat.testBit_eq_decide_div_mod_eq] at h3 h4
  have := p.isLt; have := q.isLt
  rw [orderKey, orderKey, hs] at h
  have hm : magField p = magField q := by split at h <;> omega
  rw [hs] at h3
  cases hq : signBit q <;> rw [hq] at h3 h4 <;> simp at h3 h4 <;> omega

/-! Rounding: a nearest field with the sign of a number is that number rounded. -/

/-- Half a step above the largest finite magnitude already rounds to infinity's field. -/
theorem nearestField_overflow : NearestField (overflowBound * 2 ^ 149) infMag := by
  have h1 : ((2:ℕ)^277 - 2^253 : ℕ) = ((2:ℝ)^277 - 2^253) := by
    rw [Nat.cast_sub (by norm_num)]; norm_num
  have e : infMag = (infMag - 1) + 1 := by decide
  have hf : fieldUnits (infMag - 1 + 1) = 2 ^ 277 := by rw [← e]; exact fieldUnits_infMag
  have hb : overflowBound * 2^149 = 2^277 - 2^252 := by unfold overflowBound; norm_num
  rw [e, hb]
  refine (nearestField_of_between (m := infMag - 1) ?_ ?_).2.2.2 ?_ ?_
  · rw [fieldUnits_maxMag, h1]; norm_num
  · rw [hf]; push_cast; norm_num
  · rw [hf, fieldUnits_maxMag, h1]; push_cast; norm_num
  · decide

theorem nearestField_lt_infMag {y : ℝ} {m : Nat} (h : NearestField y m) (hy : y < overflowBound * 2 ^ 149) :
    m < infMag := by
  by_contra hge
  push Not at hge
  have h1 := (h (infMag - 1)).1
  have h2 : (fieldUnits infMag : ℝ) ≤ fieldUnits m := by exact_mod_cast fieldUnits_strictMono.monotone hge
  have h3 : ((2:ℕ)^277 - 2^253 : ℕ) = ((2:ℝ)^277 - 2^253) := by
    rw [Nat.cast_sub (by norm_num)]; norm_num
  rw [fieldUnits_infMag] at h2; push_cast at h2
  rw [fieldUnits_maxMag, h3] at h1
  have hb : overflowBound * 2^149 = 2^277 - 2^252 := by unfold overflowBound; norm_num
  rw [hb] at hy
  have : (2:ℝ)^253 = 2 * 2^252 := by norm_num
  have h0 : (2:ℝ)^277 > 2^253 := by norm_num
  have hp : (2:ℝ)^252 > 0 := by norm_num
  rw [abs_of_pos (by linarith)] at h1
  rcases abs_cases (((2:ℝ)^277 - 2^253) - y) with ⟨e,_⟩ | ⟨e,_⟩ <;> rw [e] at h1 <;> linarith

theorem abs_sub_le_abs_neg_sub {a y : ℝ} (ha : 0 ≤ a) (hy : 0 ≤ y) : |a - y| ≤ |-a - y| := by
  rw [show -a - y = -(a + y) by ring, abs_neg, abs_of_nonneg (by linarith : 0 ≤ a + y), abs_le]
  constructor <;> linarith

/-- A nearest field, capped at infinity's and given the sign of `x`, is `rnd32(x)`. -/
theorem roundsTo_of {x : ℝ} {neg : Bool} {raw : Nat} (h : NearestField (|x| * 2 ^ 149) raw)
    (hn : x < 0 → neg = true) (hp : 0 < x → neg = false) : RoundsTo x (withSign neg (min raw infMag)) := by
  have hbpos : (0:ℝ) < overflowBound := by unfold overflowBound; norm_num
  have h149 : (0:ℝ) < 2 ^ 149 := by positivity
  have hov : overflowBound ≤ |x| → min raw infMag = infMag := by
    intro hb
    have := nearestField_overflow.mono h (by nlinarith)
    exact Nat.min_eq_right this
  refine ⟨fun hlt => ?_, fun hb => ?_, fun hb => ?_⟩
  · have hraw : raw < infMag := nearestField_lt_infMag h (by nlinarith)
    rw [Nat.min_eq_left hraw.le]
    refine ⟨isFinite_withSign neg hraw, fun c hc => ?_⟩
    have hcf := (isFinite_iff c).mp hc
    -- reduce to sign s = ±1
    obtain ⟨y, hy⟩ : ∃ y, y = |x| * 2 ^ 149 := ⟨_, rfl⟩
    rw [← hy] at h
    have hy0 : 0 ≤ y := by rw [hy]; positivity
    have hxs : x = (if neg then -y else y) / 2 ^ 149 := by
      rw [hy]
      rcases lt_trichotomy x 0 with hx | hx | hx
      · rw [hn hx, abs_of_neg hx]; simp
      · subst hx; simp
      · rw [hp hx, abs_of_pos hx]; simp
    have key : ∀ (q : Word) (s : Bool) (a : ℕ), ((valueOf q : ℚ) : ℝ) = (if s then -(a:ℝ) else a) / 2 ^ 149 →
        |((valueOf q : ℚ) : ℝ) - x| = |(if s = neg then (a:ℝ) else -a) - y| / 2 ^ 149 := by
      intro q s a hq
      rw [hq, hxs, ← sub_div, abs_div, abs_of_pos h149]
      congr 1
      cases s <;> cases neg <;> simp
      · rw [← abs_neg]; congr 1; ring
      · rw [← abs_neg]; congr 1; ring
    have hvp : ((valueOf (withSign neg raw) : ℚ) : ℝ) =
        (if neg then -(fieldUnits raw : ℝ) else fieldUnits raw) / 2 ^ 149 := by
      rw [valueOf_cast, signBit_withSign, magField_withSign neg (by unfold infMag at hraw; omega)]
    have kp := key _ _ _ hvp
    have kc := key _ _ _ (valueOf_cast c)
    rw [if_pos rfl] at kp
    have hmin : |(fieldUnits (magField c) : ℝ) - y| ≤
        |(if signBit c = neg then (fieldUnits (magField c) : ℝ) else -(fieldUnits (magField c) : ℝ)) - y| := by
      split
      · exact le_rfl
      · exact abs_sub_le_abs_neg_sub (by positivity) hy0
    have h1 := h (magField c)
    constructor
    · rw [kp, kc]; exact div_le_div_of_nonneg_right (h1.1.trans hmin) h149.le
    · intro he hne
      have hbit : (withSign neg raw).getLsbD 0 = decide (raw % 2 = 1) := by
        have : raw < 2^31 := by unfold infMag at hraw; omega
        simp only [BitVec.getLsbD, withSign_toNat neg this, Nat.testBit_zero]
        congr 1
        apply propext; constructor <;> intro hh <;> omega
      rw [kp, kc, div_left_inj' h149.ne'] at he
      have heq : |(fieldUnits (magField c) : ℝ) - y| = |(fieldUnits raw : ℝ) - y| := le_antisymm (he ▸ hmin) h1.1
      rw [hbit]
      by_cases hcr : magField c = raw
      · exfalso
        rw [hcr] at he hmin heq
        by_cases hs : signBit c = neg
        · apply hne
          have : ((valueOf c : ℚ) : ℝ) = ((valueOf (withSign neg raw) : ℚ) : ℝ) := by
            rw [valueOf_cast, hvp, hs, hcr]
          exact_mod_cast this
        · rw [if_neg hs] at he
          -- |-a - y| = |a - y|, so a = 0 or y = 0
          have ha : (0:ℝ) ≤ fieldUnits raw := by positivity
          have hz : (fieldUnits raw : ℝ) = 0 := by
            rw [show -(fieldUnits raw : ℝ) - y = -(fieldUnits raw + y) by ring, abs_neg, abs_of_nonneg (by linarith)] at he
            rcases abs_cases ((fieldUnits raw : ℝ) - y) with ⟨e, _⟩ | ⟨e, _⟩
            · have hy : y = 0 := by rw [e] at he; linarith
              have := (h 0).1
              rw [fieldUnits_zero, hy] at this
              simp at this
              exact_mod_cast this
            · rw [e] at he; linarith
          apply hne
          have : ((valueOf c : ℚ) : ℝ) = ((valueOf (withSign neg raw) : ℚ) : ℝ) := by
            rw [valueOf_cast, hvp, hcr, hz]; simp
          exact_mod_cast this
      · have := h1.2 hcr heq
        simp [this]
  · rw [hov (hb.trans (le_abs_self x)), hp (by linarith)]; rfl
  · rw [hov (by rw [abs_of_neg (by linarith)]; linarith), hn (by linarith)]; rfl

theorem roundsTo_signed {y : ℝ} (hy : 0 ≤ y) {neg : Bool} {raw : Nat} (h : NearestField (y * 2 ^ 149) raw) :
    RoundsTo (if neg = true then -y else y) (withSign neg (min raw infMag)) := by
  apply roundsTo_of
  · cases neg <;> simp only [Bool.false_eq_true, if_false, if_true, abs_neg, abs_of_nonneg hy] <;> exact h
  · cases neg <;> simp; exact hy
  · cases neg <;> simp; exact hy

/-! Negation, and subtraction as addition of the negation. -/

theorem neg32_fields (p : Word) : signBit (neg32 p) = !signBit p ∧ magField (neg32 p) = magField p := by
  constructor
  · simp [signBit, neg32]
  · simp only [magField, neg32]
    congr 1
    ext i hi
    simp only [BitVec.getElem_extractLsb', BitVec.getLsbD_xor]
    have : (0x80000000#32).getLsbD (0 + i) = false := by
      simp only [Nat.zero_add]
      have : ∀ j : Fin 31, (0x80000000#32).getLsbD j.1 = false := by decide
      exact this ⟨i, hi⟩
    rw [this, Bool.xor_false]

theorem units_neg32 (p : Word) : units (neg32 p) = - units p := by
  rw [units_eq, units_eq, (neg32_fields p).1, (neg32_fields p).2]
  cases signBit p <;> simp

theorem isFinite_neg32 {b : Word} (hb : isFinite b = true) : isFinite (neg32 b) = true := by
  rw [isFinite_iff] at *; rw [(neg32_fields b).2]; exact hb

theorem sub32_eq_add32 {a b : Word} (ha : isFinite a = true) (hb : isFinite b = true) : sub32 a b = add32 a (neg32 b) := by
  obtain ⟨a1, a2⟩ := not_nan_of_finite ha
  obtain ⟨b1, b2⟩ := not_nan_of_finite hb
  simp [sub32, a1, a2, b1]

end Sys2Proof.Machine
end

