-- ==== Sys2Proof/Tests/Slice0.lean ====
section
/-! SUPPORT. Tests. Expected values are those of spec/95_test_vectors.md, named by their ids, or of the worked examples of the
rule named. Then, for every statement of Certificates/Slice0/Obligations.lean that has hypotheses, a witness that meets
them. -/

namespace Sys2Proof.Tests

open Sys2Proof.Machine

/-! ### The ill-formed terms that the two checks of WellFormed refuse -/

theorem test_wellFormed_refuses_skip_of_header : (Instr.windowSkip 0x55#8 0x61#8).wellFormed = false := by decide

theorem test_wellFormed_refuses_nan : (Instr.process 0x7FC00000#32).wellFormed = false := by decide

theorem test_wellFormed_refuses_infinity : (Instr.process 0xFF800000#32).wellFormed = false := by decide

theorem test_wellFormed_takes_neighbours :
    (Instr.windowSkip 0x61#8 0x55#8).wellFormed = true ∧ (Instr.windowSkip 0x55#8 0x60#8).wellFormed = true ∧
    (Instr.process 0x7F7FFFFF#32).wellFormed = true := by decide

/-! ### Words written out from the encodings of R45, R46 and R52 -/

/-- A port list with the control vector's six bits, highest first, and the three operands. -/
def drive (rst iv il uw lw ra : Bool) (b : Byte) (pu pl : Word) : PortIn := ⟨rst, iv, il, uw, lw, ra, b, pu, pl⟩

theorem test_decode_reset : decodeTableWord 8 0b00100000 = some .reset := by decide
theorem test_decode_idle : decodeTableWord 8 0b00000000 = some .idle := by decide
theorem test_decode_rearm : decodeTableWord 8 0b00000001 = some .rearm := by decide

theorem test_decode_byte :
    (decode (.ports (drive false true false false false false 0x61#8 0#32 0#32))).toOption =
      some [.byte 0x61#8] := by decide

theorem test_decode_byteLast :
    (decode (.ports (drive false true true false false false 0xC8#8 0#32 0#32))).toOption =
      some [.byteLast 0xC8#8] := by decide

theorem test_decode_setUpper :
    (decode (.ports (drive false false false true false false 0#8 0x40400000#32 0x11111111#32))).toOption =
      some [.setUpper 0x40400000#32] := by decide

theorem test_decode_setLower :
    (decode (.ports (drive false false false false true false 0#8 0x11111111#32 0x3A83126F#32))).toOption =
      some [.setLower 0x3A83126F#32] := by decide

theorem test_decode_setThresholds :
    (decode (.ports (drive false false false true true false 0#8 0x40400000#32 0x3A83126F#32))).toOption =
      some [.setThresholds 0x40400000#32 0x3A83126F#32] := by decide

/-- The line of program P5's cycle 40, control vector 0x1D: three operations, in R84's order. -/
theorem test_decode_three_operations :
    (decode (.ports (drive false true true true false true 0x00#8 0x40800000#32 0#32))).toOption =
      some [.byteLast 0x00#8, .rearm, .setUpper 0x40800000#32] := by decide

/-- Y5, control vector 0x30: RESET alone. -/
theorem test_decode_reset_with_byte :
    (decode (.ports (drive true true false false false false 0x00#8 0#32 0#32))).toOption =
      some [.reset] := by decide

/-- Y9, control vector 0x08. -/
theorem test_decode_last_without_valid :
    (decode (.ports (drive false false true false false false 0x00#8 0#32 0#32))).toOption =
      some [.idle] := by decide

/-- N16's bytes, `55 61 B8 0B 60 F0 70 17` and twelve zeros. -/
theorem test_decode_frame :
    (decode (.window ([0x55#8, 0x61#8, 0xB8#8, 0x0B#8, 0x60#8, 0xF0#8, 0x70#8, 0x17#8] ++ List.replicate 12 0#8))).toOption =
      some [.frameDecode ⟨0x0BB8#16, 0xF060#16, 0x1770#16, 0#16, 0#16, 0#16, 0#16, 0#16, 0#16⟩] := by decide

/-- W3: the window `00 55 61 …` is no frame. -/
theorem test_decode_skip :
    (decode (.window ([0x00#8, 0x55#8, 0x61#8] ++ List.replicate 17 0#8))).toOption =
      some [.windowSkip 0x00#8 0x55#8] := by decide

theorem test_decode_short_window :
    decode (.window (0x55#8 :: 0x61#8 :: List.replicate 17 0#8)) = .error .windowNotFull := by rfl

/-- R47: PROCESS has no encoding. -/
theorem test_process_has_no_code : encode (.process 0x3F800000#32) = none := by rfl

/-- The table gives a control vector no bits 7 and 6 (R46). -/
theorem test_table_word_out_of_range : decodeTableWord 8 0x40 = none ∧ decodeTableWord 0 0 = none := by decide

/-- Bits 15:8 of a frame's table word are `W[0]` (R45), so `61 55` is skipped. -/
theorem test_table_window_order :
    decodeTableWord 16 0x5561 = some (.frameDecode ⟨0#16, 0#16, 0#16, 0#16, 0#16, 0#16, 0#16, 0#16, 0#16⟩) ∧
    decodeTableWord 16 0x6155 = some (.windowSkip 0x61#8 0x55#8) := by decide

/-! ### One step on small states -/

/-- The block right after RESET, with output latency 1. -/
abbrev fresh : State := State.resetAt 1

/-- `fresh`, Disarmed. -/
abbrev disarmed : State := { fresh with armed := false }

/-- The first 19 bytes of the frame with the given `az` bytes and every other field 0. -/
abbrev frame19 (lo hi : Byte) : List Byte :=
  [0x55#8, 0x61#8, 0#8, 0#8, 0#8, 0#8, lo, hi] ++ List.replicate 11 0#8

/-- The block with 19 bytes of N11's frame, FRAME(az=8192), in the window. -/
abbrev nearFrame : State := { fresh with window := frame19 0x00#8 0x20#8 }

/-- N11's frame. -/
abbrev frameN11 : RawFrame := ⟨0#16, 0#16, 0x2000#16, 0#16, 0#16, 0#16, 0#16, 0#16, 0#16⟩

/-- One view of the next state, if there is one. -/
def seen {α : Type} (view : State → α) (r : Result) : Option α :=
  match r with
  | .next t => some (view t)
  | .fault _ => none
  | .refused _ => none

/-- R99's example: upper 3.0 and one byte in the window, then RESET. -/
theorem test_reset :
    seen (fun t => (t.window, t.armed, t.upper, t.lower))
      (exec .reset { disarmed with window := [0x55#8], upper := 0x40400000#32, resetSeen := false }) =
      some ([], true, 0x3FC00000#32, 0x3DCCCCCD#32) := by decide

/-- Y5: the byte of a RESET cycle is not accepted. -/
theorem test_reset_ignores_byte :
    seen coreState (cycle 1 { disarmed with window := [0x55#8, 0x61#8],
                                            inputs := [drive true true false true false true 0#8 0x40400000#32 0#32] }) =
      some ([], true, 0x3FC00000#32, 0x3DCCCCCD#32) := by decide

/-- R83's example: IDLE between two bytes keeps the window. -/
theorem test_idle :
    seen (fun t => (t.window, t.armed, t.cycleSample)) (cycle 1 { disarmed with window := [0x55#8] }) =
      some ([0x55#8], false, none) := by decide

theorem test_idle_before_reset : exec .idle { fresh with resetSeen := false } = .refused .beforeFirstReset := by rfl

/-- R53: a byte joins the window at its end. -/
theorem test_byte_waits :
    seen (fun t => (t.window, t.cycleSample)) (exec (.byte 0x61#8) { fresh with window := [0x55#8] }) =
      some ([0x55#8, 0x61#8], none) := by decide

/-- Y1, cycle 20, and K1: the frame's last byte gives the sample, the kick 0x3FA2FC97 and a Disarmed detector. -/
theorem test_byte_completes_frame :
    seen (fun t => (t.window, t.armed, t.cycleKick, t.cycleSample.map Sample.comp)) (exec (.byte 0x00#8) nearFrame) =
      some ([], false, some 0x3FA2FC97#32, some 0x3FF47AE2#32) := by decide +kernel

/-- W1: the last byte of a short buffer empties the window and makes no sample. -/
theorem test_byteLast_discards :
    seen (fun t => (t.window, t.cycleSample))
      (exec (.byteLast 0x00#8) { fresh with window := [0x55#8, 0x61#8] }) = some ([], none) := by decide

/-- W4, cycle 20: a skip, then the 19 bytes that are left are discarded. -/
theorem test_byteLast_after_skip :
    seen (fun t => (t.window, t.cycleSample))
      (exec (.byteLast 0x00#8) { fresh with window := 0x00#8 :: (frame19 0x00#8 0x20#8).take 18 }) =
      some ([], none) := by decide

/-- N20: every field of the sample, and `sqrt32` correctly rounded near 1. -/
theorem test_frameDecode_sample :
    seen State.cycleSample (exec (.frameDecode ⟨1#16, 0xFFFF#16, 2048#16, 1#16, 0xFFFF#16, 0x7FFF#16, 0x4000#16,
      0x8000#16, 0x7FFF#16⟩) fresh) =
      some (some ⟨0x3A000000#32, 0xBA000000#32, 0x3F800000#32, 0x3D7A0000#32, 0xBD7A0000#32, 0x44F9FE0C#32,
        0x42B40000#32, 0xC3340000#32, 0x4333FE98#32, 0x3F800002#32, 0x00000000#32⟩) := by decide +kernel

/-- N19, the rounding example of R63: raw (-17313, 32169, 26147); with `U` = 1.5 the kick is capped. -/
theorem test_frameDecode_rounding :
    seen (fun t => (t.cycleSample.map fun x => (x.mag, x.comp), t.cycleKick, t.armed))
      (exec (.frameDecode ⟨0xBC5F#16, 0x7DA9#16, 0x6623#16, 0#16, 0#16, 0#16, 0#16, 0#16, 0#16⟩) fresh) =
      some (some (0x41AF7CF1#32, 0x419EC49F#32), some 0x40000000#32, false) := by decide +kernel

/-- R56's example: `00 55 61 …` becomes `55 61 …`. -/
theorem test_windowSkip :
    seen (fun t => (t.window.take 2, t.window.length, t.armed))
      (exec (.windowSkip 0x00#8 0x55#8) { disarmed with window := 0x00#8 :: frame19 0x00#8 0x20#8 }) =
      some ([0x55#8, 0x61#8], 19, false) := by decide

/-- W7: a byte that fills the window `55 55 61 …` makes no sample and drops the first `55`. -/
theorem test_byte_resynchronizes :
    seen (fun t => (t.window.take 2, t.window.length, t.cycleSample))
      (exec (.byte 0x00#8) { fresh with window := 0x55#8 :: (frame19 0x00#8 0x20#8).take 18 }) =
      some ([0x55#8, 0x61#8], 19, none) := by decide

/-- K2: with `U` = 1.5, N7's magnitude kicks with intensity 0x3F800741. -/
theorem test_process_triggers :
    seen (fun t => (t.armed, t.cycleKick)) (exec (.process 0x3FC00AE2#32) fresh) =
      some (false, some 0x3F800741#32) := by decide +kernel

/-- K4 and K7, the strict edges: `v = U` does not trigger, `v = L` does not re-arm; K9: just below `L` re-arms. -/
theorem test_process_edges :
    seen (fun t => (t.armed, t.cycleKick)) (exec (.process 0x3FC00000#32) fresh) = some (true, none) ∧
    seen (fun t => (t.armed, t.cycleKick)) (exec (.process 0x3DCCCCCD#32) disarmed) = some (false, none) ∧
    seen (fun t => (t.armed, t.cycleKick)) (exec (.process 0x3DCCAE20#32) disarmed) = some (true, none) := by decide

/-- T8, T10, T14 and T17 for `upper`. -/
theorem test_setUpper :
    [0x3DCCCCCC#32, 0x3DCCCCCE#32, 0x7F800000#32, 0x7F800001#32].map
      (fun p => seen State.upper (exec (.setUpper p) fresh)) =
      [some 0x3DCCCCCD#32, some 0x3DCCCCCE#32, some 0x7F800000#32, some 0x3DCCCCCD#32] := by decide

theorem test_setUpper_leaves_lower : seen State.lower (exec (.setUpper 0x40400000#32) fresh) = some 0x3DCCCCCD#32 := by
  decide

/-- T2, T5, T8 and T13 for `lower`. -/
theorem test_setLower :
    [0x80000000#32, 0x3C23D709#32, 0x3DCCCCCC#32, 0xBF800000#32].map
      (fun p => seen State.lower (exec (.setLower p) fresh)) =
      [some 0x3C23D70A#32, some 0x3C23D70A#32, some 0x3DCCCCCC#32, some 0x3C23D70A#32] := by decide

theorem test_setLower_leaves_upper : seen State.upper (exec (.setLower 0x40A00000#32) fresh) = some 0x3FC00000#32 := by
  decide

/-- R76's example: SETUL 0x40400000, 0x3A83126F. -/
theorem test_setThresholds :
    seen (fun t => (t.upper, t.lower)) (exec (.setThresholds 0x40400000#32 0x3A83126F#32) fresh) =
      some (0x40400000#32, 0x3C23D70A#32) := by decide

/-- K22. -/
theorem test_rearm : seen State.armed (exec .rearm disarmed) = some true := by decide

/-- Y4 and K24: REARM in the cycle of a kick. -/
theorem test_rearm_with_sample :
    seen (fun t => (t.armed, t.cycleKick))
      (cycle 1 { nearFrame with inputs := [drive false true true false false true 0#8 0#32 0#32] }) =
      some (true, some 0x3FA2FC97#32) := by decide +kernel

/-! ### The output side (R85) and the host's two functions -/

/-- Y1, cycle 20 with `DEC_LATENCY` 1: the next cycle shows the sample, the kick and the Disarmed mode. -/
theorem test_ports_latency_one :
    seen (fun t => (t.ports.smpValid, t.ports.smp.comp, t.ports.kickValid, t.ports.kickIntensity, t.ports.armedO))
      (cycle 1 { nearFrame with inputs := [drive false true true false false false 0#8 0#32 0#32] }) =
      some (true, 0x3FF47AE2#32, true, 0x3FA2FC97#32, false) := by decide +kernel

/-- Y6 with `DEC_LATENCY` 3: a RESET cancels the sample and the kick that the ports have not shown. -/
theorem test_ports_reset_cancels :
    seen (fun t => (t.ports.smpValid, t.ports.kickValid, t.pipe))
      (cycle 3 { fresh with pipe := [⟨some (decodeFrame frameN11), some 0x3FA2FC97#32, false, upperDefault, lowerDefault⟩],
                            inputs := [drive true false false false false false 0#8 0#32 0#32] }) =
      some (false, false, [resetEffects]) := by decide +kernel

theorem test_fetch_byte :
    seen State.window (step (State.reset.withFetchWord 8 0x10)) = some [0x00#8] := by decide

theorem test_fetch_frame :
    seen (fun t => (t.window, t.cycleSample.isSome)) (step (State.reset.withFetchWord 16 0x5561)) =
      some ([], true) := by decide +kernel

/-! ### Witnesses: concrete states and operands that meet the hypotheses of each statement -/

/-- The state whose next cycle is driven by `p`. -/
abbrev driven (s : State) (p : PortIn) : State := { s with inputs := [p] }

/-- With latency 1, where the status ports show the reset values at once, as with any other. -/
theorem witness_ResetCycleDominates :
    (nextPorts (driven disarmed (portsOf rowReset.value))).rst = true ∧
    (∃ t, cycle 1 (driven disarmed (portsOf rowReset.value)) = .next t) ∧ (2 : Nat) ≠ 1 :=
  ⟨rfl, ⟨_, cycle_of (.inl rfl)⟩, by decide⟩

theorem witness_IdleChangesNothing :
    disarmed.resetSeen = true ∧ decodePorts (nextPorts disarmed) = [.idle] := ⟨rfl, rfl⟩

/-- One state for each clause, the first at the two lengths next to 20. -/
theorem witness_ByteAppendsThenTests :
    (fresh.resetSeen = true ∧ ({ fresh with window := List.replicate 18 0#8 }.window ++ [0#8]).length ≠ 20 ∧
      ({ fresh with window := List.replicate 20 0#8 }.window ++ [0#8]).length ≠ 20) ∧
    ((nearFrame.window ++ [0#8]).length = 20 ∧
      (nearFrame.window ++ [0#8]).getD 0 0#8 = 0x55#8 ∧ (nearFrame.window ++ [0#8]).getD 1 0#8 = 0x61#8) ∧
    ((List.replicate 19 0x55#8 ++ [0#8]).length = 20 ∧
      ¬ ((List.replicate 19 0x55#8 ++ [0#8]).getD 0 0#8 = 0x55#8 ∧
        (List.replicate 19 0x55#8 ++ [0#8]).getD 1 0#8 = 0x61#8)) := by decide

theorem witness_ByteLastEmptiesWindow : nearFrame.resetSeen = true := by rfl

theorem witness_FrameDecodeEmitsAndEvaluates :
    fresh.resetSeen = true ∧ fresh.armed = true ∧ gt32 (decodeFrame frameN11).comp fresh.upper = true := by
  decide +kernel

theorem witness_FrameDecodeIssuesProcess : disarmed.resetSeen = true := by rfl

theorem witness_WindowSkipDropsOldest : nearFrame.resetSeen = true := by rfl

/-- K2, K9 and K4: one input for each branch. -/
theorem witness_ProcessHasThreeBranches :
    (fresh.resetSeen = true ∧ disarmed.resetSeen = true) ∧
    (isFinite 0x3FC00AE2#32 = true ∧ fresh.armed = true ∧ gt32 0x3FC00AE2#32 fresh.upper = true) ∧
    (isFinite 0x3DCCAE20#32 = true ∧ disarmed.armed = false ∧ lt32 0x3DCCAE20#32 disarmed.lower = true) ∧
    (isFinite 0x3FC00000#32 = true ∧ ¬ (fresh.armed = true ∧ gt32 0x3FC00000#32 fresh.upper = true) ∧
      ¬ (fresh.armed = false ∧ lt32 0x3FC00000#32 fresh.lower = true)) := by decide

theorem witness_NonFiniteInputCannotOccur :
    isFinite 0x7F800000#32 = false ∧ isFinite 0x7FC00000#32 = false := by decide

theorem witness_SetUpperStoresClamped : fresh.resetSeen = true := by rfl

theorem witness_SetLowerStoresClamped : fresh.resetSeen = true := by rfl

theorem witness_SetThresholdsStoresBothClamped : fresh.resetSeen = true := by rfl

theorem witness_RearmArmsOnly : fresh.resetSeen = true ∧ fresh.armed = true := ⟨rfl, rfl⟩

/-- A block that has not been reset. -/
abbrev poweredOn : State := { fresh with resetSeen := false }

theorem witness_NothingRunsBeforeFirstReset :
    poweredOn.resetSeen = false ∧ Instr.idle.wellFormed = true ∧ Instr.idle ≠ .reset ∧
    (nextPorts poweredOn).rst = false := by decide

theorem witness_ControlVectorSelectsOperations :
    (portsOf rowReset.value).rst = true ∧ (portsOf rowIdle.value).rst = false ∧
    (portsOf rowIdle.value).inValid = false ∧ (portsOf rowIdle.value).rearm = false ∧
    (portsOf rowIdle.value).cfgUpperWe = false ∧ (portsOf rowIdle.value).cfgLowerWe = false ∧
    (portsOf rowRearm.value).rst = false ∧ (portsOf rowRearm.value).rearm = true := by decide

theorem witness_IgnoredInputsChangeNothing :
    (portsOf 0x08#6).inValid = false ∧ (portsOf 0x08#6).cfgUpperWe = false ∧ (portsOf 0x08#6).cfgLowerWe = false ∧
    fresh.resetSeen = true := by decide

theorem witness_HeaderAloneDecidesWindow :
    ((frameBytes frameN11).length = 20 ∧ (frameBytes frameN11).getD 0 0#8 = 0x55#8 ∧
      (frameBytes frameN11).getD 1 0#8 = 0x61#8) ∧
    ((List.replicate 20 0x55#8).length = 20 ∧ ¬ ((List.replicate 20 0x55#8).getD 0 0#8 = 0x55#8 ∧
      (List.replicate 20 0x55#8).getD 1 0#8 = 0x61#8)) ∧
    (List.replicate 19 0x55#8).length ≠ 20 ∧ (List.replicate 21 0x55#8).length ≠ 20 := by decide

theorem witness_DecodeEncodeAgree :
    (Instr.windowSkip 0x61#8 0x55#8).wellFormed = true ∧
    encode (.windowSkip 0x61#8 0x55#8) = some (.window (0x61#8 :: 0x55#8 :: List.replicate 18 0#8)) ∧
    (Instr.rearm).wellFormed = true ∧ encode .rearm = some (.ports (portsOf 0x01#6)) := ⟨rfl, rfl, rfl, rfl⟩

theorem witness_FrameDecodingDropsNoBit :
    decodeWindow (frameBytes frameN11) = .ok (.frameDecode frameN11) := by rfl

theorem witness_FieldsAreLittleEndianSigned : (0 : Nat) < 9 ∧ (8 : Nat) < 9 := by decide

/-- Both largest finite values, whose sum and product overflow, and a divisor. -/
theorem witness_AddSubCorrectlyRounded : isFinite 0x7F7FFFFF#32 = true ∧ isFinite 0xFF7FFFFF#32 = true := by decide

theorem witness_MulDivCorrectlyRounded :
    isFinite 0x7F7FFFFF#32 = true ∧ isFinite 0x00000001#32 = true ∧ isZero 0x00000001#32 = false := by decide

/-- A positive value, and -0.0. -/
theorem witness_SqrtCorrectlyRounded :
    (isFinite 0x44400000#32 = true ∧ 0 ≤ valueOf 0x44400000#32) ∧
    (isFinite 0x80000000#32 = true ∧ signBit 0x80000000#32 = true ∧ 0 ≤ valueOf 0x80000000#32) := by
  have hpos : (0 : Int) ≤ units 0x44400000#32 := by decide +kernel
  have hzero : units 0x80000000#32 = 0 := by decide +kernel
  refine ⟨⟨by decide, div_nonneg (by exact_mod_cast hpos) (by positivity)⟩, by decide, by decide, ?_⟩
  simp [valueOf, hzero]

theorem witness_ComparisonsOrderValues :
    isFinite 0x80000000#32 = true ∧ isFinite 0x00000000#32 = true ∧ isNaN 0x7F800001#32 = true := by decide

theorem witness_ScalingsAreExact : rawValue 0x0000#16 = 0 := by decide

theorem witness_CompensationIsNeverNegative :
    isFinite baseline = true ∧ valueOf baseline ≤ valueOf baseline ∧
    isFinite 0x4005C290#32 = true ∧ valueOf baseline < valueOf 0x4005C290#32 :=
  ⟨by decide, le_rfl, by decide, valueOf_lt.mpr (by decide +kernel)⟩

theorem witness_OnlyAccelerationReachesDetector :
    frameN11.ax = { frameN11 with yaw := 1#16 }.ax ∧ frameN11.ay = { frameN11 with yaw := 1#16 }.ay ∧
    frameN11.az = { frameN11 with yaw := 1#16 }.az ∧ fresh.resetSeen = true := ⟨rfl, rfl, rfl, rfl⟩

/-- Each clause of the clamp, at the floor and one step below it. -/
theorem witness_ClampKeepsOrRaisesToFloor :
    (isFinite upperFloor = true ∧ valueOf upperFloor ≤ valueOf upperFloor) ∧ isNaN 0x7FC00000#32 = true ∧
    signBit 0x80000000#32 = true ∧ expField 0x00000001#32 = 0 ∧
    (isFinite 0x3DCCCCCC#32 = true ∧ valueOf 0x3DCCCCCC#32 < valueOf upperFloor) ∧
    (isFinite 0x3C23D709#32 = true ∧ valueOf 0x3C23D709#32 < valueOf lowerFloor) :=
  ⟨⟨by decide, le_rfl⟩, by decide, by decide, by decide, ⟨by decide, valueOf_lt.mpr (by decide +kernel)⟩, by decide,
    valueOf_lt.mpr (by decide +kernel)⟩

/-- K15. -/
theorem witness_IntensityIsBounded :
    isFinite 0x3FC00AE2#32 = true ∧ legalUpper 0x3FC00AE1#32 ∧ gt32 0x3FC00AE2#32 0x3FC00AE1#32 = true := by decide

/-- The state in which `lower` is above `upper`, and the one in which they are equal. -/
abbrev lowerAbove : State := { fresh with lower := 0x40A00000#32 }

abbrev lowerEqual : State := { fresh with lower := upperDefault }

/-- One input for each ordering, at the edges of its range. -/
theorem witness_ThresholdOrderings :
    (lt32 fresh.lower fresh.upper = true ∧ ge32 fresh.lower fresh.lower = true ∧ ge32 fresh.upper fresh.lower = true ∧
      ge32 fresh.upper fresh.upper = true ∧ isFinite fresh.lower = true ∧ isFinite fresh.upper = true) ∧
    (lowerEqual.lower = lowerEqual.upper ∧ legalUpper lowerEqual.upper ∧ lowerEqual.armed = true ∧
      gt32 lowerEqual.upper lowerEqual.upper = false ∧ lt32 lowerEqual.upper lowerEqual.upper = false) ∧
    (gt32 0x3FF47AE2#32 lowerAbove.upper = true ∧ lt32 0x3FF47AE2#32 lowerAbove.lower = true ∧
      lowerAbove.armed = true) ∧
    legalLower disarmed.lower ∧ disarmed.armed = false ∧ fresh.resetSeen = true := by decide

theorem witness_ExtremeThresholds :
    fresh.resetSeen = true ∧ ge32 0x41CCFB85#32 0x41CCFB85#32 = true ∧ ge32 0x7F800000#32 0x41CCFB85#32 = true ∧
    { disarmed with lower := 0x7F800000#32 }.lower = 0x7F800000#32 ∧
    { disarmed with lower := 0x7F800000#32 }.armed = false := by decide

/-- The cycle that completes N11's frame, Armed. -/
abbrev kickCycle : State := driven nearFrame (lastPorts 0#8)

theorem kickCycle_step :
    step kickCycle = .next (endCycle Config.decLatency (cycleBody (lastPorts 0#8) (beginCycle kickCycle))) :=
  step_of (.inr rfl)

theorem kickCycle_kick : (cycleBody (lastPorts 0#8) (beginCycle kickCycle)).cycleKick.isSome = true := by decide +kernel

theorem kickCycle_armed : (cycleBody (lastPorts 0#8) (beginCycle kickCycle)).armed = false := by decide +kernel

theorem idle_step (s : State) (h : s.resetSeen = true) (hi : s.inputs = []) :
    step s = .next (endCycle Config.decLatency (beginCycle s)) := by
  have h' := step_of (s := s) (.inr h)
  rw [show nextPorts s = portsOf 0#6 by rw [nextPorts, hi]; rfl] at h'
  exact h'

theorem witness_KickNeedsArmedDetector :
    (∃ t, step kickCycle = .next t ∧ t.cycleKick.isSome = true) ∧
    (∃ t, step disarmed = .next t ∧ disarmed.armed = false ∧ (nextPorts disarmed).rst = false ∧
      (nextPorts disarmed).rearm = false ∧ ∀ x ∈ t.cycleSample, lt32 x.comp disarmed.lower = false) :=
  ⟨⟨_, kickCycle_step, by rw [endCycle_cycleKick]; exact kickCycle_kick⟩,
    _, idle_step disarmed rfl rfl, rfl, rfl, rfl, nofun⟩

theorem witness_DisarmedDetectorStaysSilent :
    ∃ u, Runs 1 disarmed u ∧ disarmed.armed = false ∧
      ∀ (k : Nat) (a b : State), k < 1 → Runs k disarmed a → step a = .next b →
        (nextPorts a).rst = false ∧ (nextPorts a).rearm = false ∧
        ∀ x ∈ b.cycleSample, lt32 x.comp a.lower = false := by
  refine ⟨_, .succ (idle_step disarmed rfl rfl) (.zero _), rfl, fun k a b hk hr hs => ?_⟩
  obtain rfl : k = 0 := by omega
  cases hr
  rw [idle_step disarmed rfl rfl] at hs
  cases hs
  exact ⟨rfl, rfl, nofun⟩

/-- A kick, a REARM and a RESET each change the mode. -/
theorem witness_ModeChangesOnlyThreeWays :
    (∃ t, step kickCycle = .next t ∧ t.armed ≠ kickCycle.armed) ∧
    (∃ t, step (driven disarmed (portsOf rowRearm.value)) = .next t ∧ t.armed ≠ disarmed.armed) ∧
    (∃ t, step (driven disarmed (portsOf rowReset.value)) = .next t ∧ t.armed ≠ disarmed.armed) :=
  ⟨⟨_, kickCycle_step, by rw [endCycle_armed, kickCycle_armed]; decide⟩,
    ⟨_, step_of (.inr rfl), by rw [endCycle_armed]; decide⟩, _, step_of (.inl rfl), by rw [endCycle_armed]; decide⟩

/-- One, two and three operations in a cycle, and one that is refused. -/
theorem witness_StepRunsDecodedOperations :
    (decodePorts (nextPorts fresh) = [.idle] ∧ exec .idle (beginCycle fresh) = .next (beginCycle fresh)) ∧
    (decodePorts (nextPorts poweredOn) = [.idle] ∧
      exec .idle (beginCycle poweredOn) = .refused .beforeFirstReset) ∧
    (decodePorts (portsOf 0x05#6) = [.rearm, .setUpper 0#32] ∧
      exec .rearm fresh = .next (setArmed fresh) ∧
      exec (.setUpper 0#32) (setArmed fresh) = .next (writeUpper (setArmed fresh) 0#32)) ∧
    (decodePorts (portsOf 0x15#6) = [.byte 0#8, .rearm, .setUpper 0#32] ∧
      exec (.byte 0#8) fresh = .next (acceptByte fresh 0#8)) :=
  ⟨⟨rfl, rfl⟩, ⟨rfl, rfl⟩, ⟨rfl, rfl, rfl⟩, rfl, rfl⟩

theorem witness_ByteRunsDecodedWindow :
    nearFrame.resetSeen = true ∧ decodeWindow (nearFrame.window ++ [0#8]) = .ok (.frameDecode frameN11) ∧
    decodeWindow (List.replicate 19 0x55#8 ++ [0#8]) = .ok (.windowSkip 0x55#8 0x55#8) := ⟨rfl, rfl, rfl⟩

theorem witness_CycleComposesByteRearmConfig :
    kickCycle.resetSeen = true ∧ (nextPorts kickCycle).rst = false ∧ (nextPorts kickCycle).inValid = true ∧
    (nextPorts kickCycle).inLast = true ∧ (nextPorts fresh).inValid = false ∧ (bytePorts 0#8).inValid = true ∧
    (bytePorts 0#8).inLast = false := ⟨rfl, rfl, rfl, rfl, rfl, rfl, rfl⟩

theorem witness_EveryCycleCompletes :
    fresh.resetSeen = true ∧ (Instr.process 0#32).wellFormed = true := by decide

theorem witness_SameCycleWritesAreNotSeen :
    nearFrame.resetSeen = true ∧ (lastPorts 0#8).rst = false ∧
    { lastPorts 0#8 with rearm := true, cfgUpperWe := true }.rst = false ∧
    (lastPorts 0#8).inValid = { lastPorts 0#8 with rearm := true, cfgUpperWe := true }.inValid ∧
    (lastPorts 0#8).inLast = { lastPorts 0#8 with rearm := true, cfgUpperWe := true }.inLast ∧
    (lastPorts 0#8).inData = { lastPorts 0#8 with rearm := true, cfgUpperWe := true }.inData :=
  ⟨rfl, rfl, rfl, rfl, rfl, rfl⟩

/-- With latency 1 the cycle itself fills the ports; with latency 3 a RESET cycle and one cycle after it. -/
theorem witness_PortsShowEffectsAfterLatency :
    (∃ t u, fresh.pipe.length < 1 ∧ cycle 1 fresh = .next t ∧ RunsAt 1 (1 - 1) t u ∧
      ∀ k a, k < 1 - 1 → RunsAt 1 k t a → (nextPorts a).rst = false) ∧
    (∃ t u, (nextPorts (driven fresh (portsOf rowReset.value))).rst = true ∧
      cycle 3 (driven fresh (portsOf rowReset.value)) = .next t ∧ 1 < 3 - 1 ∧ RunsAt 3 1 t u ∧
      ∀ k a, k < 1 → RunsAt 3 k t a → (nextPorts a).rst = false) := by
  refine ⟨⟨_, _, by decide, cycle_of (.inr rfl), .zero _, fun k a hk => by omega⟩,
    _, _, rfl, cycle_of (.inr rfl), by decide, .succ (cycle_of (.inr rfl)) (.zero _), fun k a hk hr => ?_⟩
  obtain rfl : k = 0 := by omega
  cases hr
  rfl

/-- A block that gets no input runs on for as long as one likes. -/
theorem idle_runs : ∀ (n : Nat) (s : State), s.resetSeen = true → s.inputs = [] → ∃ u, Runs n s u
  | 0, s, _, _ => ⟨s, .zero _⟩
  | n + 1, s, h, hi => by
    obtain ⟨u, hu⟩ := idle_runs n (endCycle Config.decLatency (beginCycle s)) (by simpa using h) (by simp [hi])
    exact ⟨u, .succ (idle_step s h hi) hu⟩

theorem witness_SamplesAreTwentyCyclesApart :
    ∃ t u, step kickCycle = .next t ∧ t.cycleSample.isSome = true ∧ 19 ≤ 19 ∧ Runs 19 t u := by
  have h : (cycleBody (lastPorts 0#8) (beginCycle kickCycle)).cycleSample.isSome = true := by decide +kernel
  obtain ⟨u, hu⟩ := idle_runs 19 (endCycle Config.decLatency (cycleBody (lastPorts 0#8) (beginCycle kickCycle)))
    (by simp [cycleBody, lastPorts, portsOf, rowByteLast, configStage, rearmStage, kickCycle]) (by
      simp [cycleBody, lastPorts, portsOf, rowByteLast, configStage, rearmStage, kickCycle])
  exact ⟨_, u, kickCycle_step, by rw [endCycle_cycleSample]; exact h, le_rfl, hu⟩

/-- A delivery of `55 61`: the first byte in a cycle of its own, a waiting cycle, a cycle of REARM alone, and the last byte
in a cycle with REARM and a write of both thresholds. -/
abbrev waitingPorts : List PortIn :=
  [bytePorts 0x55#8, portsOf 0#6, portsOf rowRearm.value,
   drive false true true true true true 0x61#8 0x40800000#32 0x3A83126F#32]

theorem waitingPorts_deliver : Delivery [0x55#8, 0x61#8] waitingPorts :=
  .byte (p := bytePorts 0x55#8) rfl rfl rfl (.wait rfl rfl (.wait rfl rfl
    (.last (p := drive false true true true true true 0x61#8 0x40800000#32 0x3A83126F#32) rfl rfl rfl)))

/-- The bytes `bs` before a delivery of `buffer`, one in every cycle. -/
theorem deliver_bytes {buffer : List Byte} {ps : List PortIn} (h : Delivery buffer ps) :
    ∀ bs : List Byte, Delivery (bs ++ buffer) (bs.map bytePorts ++ ps)
  | [] => h
  | b :: rest => .byte (p := bytePorts b) rfl rfl rfl (deliver_bytes h rest)

theorem last_delivers (b : Byte) : Delivery [b] [lastPorts b] := .last (p := lastPorts b) rfl rfl rfl

/-- A prefix of the delivery that ends between its bytes, and the whole of it. -/
theorem witness_BlockScansLikeSource :
    Delivery [0x55#8, 0x61#8] waitingPorts ∧ fresh.resetSeen = true ∧ fresh.window = [] ∧
    { fresh with inputs := waitingPorts }.inputs = waitingPorts ++ [] ∧
    2 < waitingPorts.length ∧ 4 = waitingPorts.length ∧ [0x55#8, 0x61#8] ≠ ([] : List Byte) :=
  ⟨waitingPorts_deliver, rfl, rfl, rfl, by decide, rfl, nofun⟩

/-- A frame of zero fields split after its header, the first part delivered with waiting cycles (W10 splits one after ten
bytes). -/
theorem witness_SplitFrameYieldsNoSample :
    Delivery [0x55#8, 0x61#8] waitingPorts ∧
    Delivery (List.replicate 17 0#8 ++ [0#8]) ((List.replicate 17 0#8).map bytePorts ++ [lastPorts 0#8]) ∧
    fresh.resetSeen = true ∧ fresh.window = [] ∧
    [0x55#8, 0x61#8].length + (List.replicate 17 0#8 ++ [0#8]).length = 20 :=
  ⟨waitingPorts_deliver, deliver_bytes (last_delivers 0#8) _, rfl, rfl, rfl⟩

/-- One delivery for each clause: a short buffer with waiting cycles, two frames, and a stray byte before a frame. -/
theorem witness_ScanProperties :
    fresh.resetSeen = true ∧ fresh.window = [] ∧
    { fresh with inputs := waitingPorts }.inputs = waitingPorts ++ [] ∧
    (Delivery [0x55#8, 0x61#8] waitingPorts ∧ [0x55#8, 0x61#8].length < 20) ∧
    Delivery (frameBytes frameN11 ++ frameBytes frameN11)
      ((frameBytes frameN11 ++ (frameBytes frameN11).take 19).map bytePorts ++ [lastPorts 0#8]) ∧
    Delivery (0x55#8 :: frameBytes frameN11)
      ((0x55#8 :: (frameBytes frameN11).take 19).map bytePorts ++ [lastPorts 0#8]) :=
  ⟨rfl, rfl, rfl, ⟨waitingPorts_deliver, by decide⟩,
    deliver_bytes (last_delivers 0#8) (frameBytes frameN11 ++ (frameBytes frameN11).take 19),
    deliver_bytes (last_delivers 0#8) (0x55#8 :: (frameBytes frameN11).take 19)⟩

theorem witness_TransactionLevelAgrees : ∃ u, Runs 1 kickCycle u := ⟨_, .succ kickCycle_step (.zero _)⟩

theorem witness_OneOperationPerCycleAgrees :
    fresh.resetSeen = true ∧
    [Instr.rearm, .byteLast 0x61#8].map encode =
      [portsOf 0x01#6, lastPorts 0x61#8].map (fun p => some (Code.ports p)) ∧
    { fresh with inputs := [portsOf 0x01#6, lastPorts 0x61#8] }.inputs = [portsOf 0x01#6, lastPorts 0x61#8] ++ [] :=
  ⟨rfl, rfl, rfl⟩

theorem witness_LatencyChangesOnlyOutputs : ∃ t, cycle 1 fresh = .next t := ⟨_, cycle_of (.inr rfl)⟩

theorem fresh_legal : Legal fresh :=
  ⟨by decide, by decide, by decide, decLatency_pos, nofun, by decide, nofun, by decide⟩

theorem fresh_ranges : RangesKept fresh := ⟨nofun, nofun, nofun, nofun, nofun, nofun⟩

theorem witness_StepKeepsInvariant : Inv fresh ∧ ∃ t, step fresh = .next t :=
  ⟨fun _ => fresh_legal, _, idle_step fresh rfl rfl⟩

theorem witness_StepKeepsRanges : fresh.resetSeen = true ∧ Legal fresh ∧ RangesKept fresh ∧ ∃ t, step fresh = .next t :=
  ⟨rfl, fresh_legal, fresh_ranges, _, idle_step fresh rfl rfl⟩

theorem witness_ResetCycleEstablishesInvariant :
    (nextPorts (driven poweredOn (portsOf rowReset.value))).rst = true := by rfl

end Sys2Proof.Tests
end

section
/-! PROOFS. The scope statements: the primitives of spec/00_scope.md R12 round the exact result once and compare by value,
and the output latency of R8 reaches the output side only. -/

namespace Sys2Proof.Machine

/-! ### Values by sign and magnitude (R12) -/

theorem valueOf_eq_sign_mag (p : Word) :
    valueOf p = if signBit p = true then -((magUnits p : ℚ) / 2 ^ 149) else (magUnits p : ℚ) / 2 ^ 149 := by
  unfold valueOf units
  split
  · push_cast; exact neg_div _ _
  · push_cast; rfl

theorem isZero_iff_magField {p : Word} : isZero p = true ↔ magField p = 0 := by simp [isZero]

theorem isZero_iff_magUnits {p : Word} : isZero p = true ↔ magUnits p = 0 := by
  rw [isZero_iff_magField, magUnits_eq, ← fieldUnits_strictMono.injective.eq_iff, fieldUnits_zero]

theorem magUnits_pos {p : Word} (h : isZero p = false) : 0 < magUnits p := by
  rw [Bool.eq_false_iff, ne_eq, isZero_iff_magUnits] at h
  exact Nat.pos_of_ne_zero h

theorem valueOf_eq_zero {p : Word} (h : isZero p = true) : valueOf p = 0 := by
  simp [valueOf_eq_sign_mag, isZero_iff_magUnits.mp h]

/-- Only the two zeros have no magnitude. -/
theorem eq_withSign_of_isZero {p : Word} (h : isZero p = true) : p = withSign (signBit p) 0 := by
  have hmag := isZero_iff_magField.mp h
  have hsign := signBit_withSign (signBit p) 0
  refine eq_of_orderKey ?_ hsign.symm
  simp [orderKey, hmag, magField_withSign]

theorem signBit_eq_false_of_nonneg {p : Word} (h0 : 0 ≤ valueOf p) (hz : isZero p = false) : signBit p = false := by
  by_contra hs
  have hpos := magUnits_pos hz
  rw [valueOf_eq_sign_mag, if_pos (by simpa using hs)] at h0
  have : (0 : ℚ) < (magUnits p : ℚ) / 2 ^ 149 := by positivity
  linarith

/-! ### The arithmetic primitives on finite operands, and what they round (R12) -/

theorem add32_of_finite {a b : Word} (ha : isFinite a = true) (hb : isFinite b = true) :
    add32 a b = if units a + units b = 0 then withSign (signBit a && signBit b) 0
      else withSign (decide (units a + units b < 0)) (roundQuot (units a + units b).natAbs 1) := by
  obtain ⟨aNan, aInf⟩ := not_nan_of_finite ha
  obtain ⟨bNan, bInf⟩ := not_nan_of_finite hb
  simp [add32, aNan, bNan, aInf, bInf]

theorem mul32_of_finite {a b : Word} (ha : isFinite a = true) (hb : isFinite b = true) :
    mul32 a b = withSign (signBit a != signBit b) (roundQuot (magUnits a * magUnits b) (2 ^ 149)) := by
  obtain ⟨aNan, aInf⟩ := not_nan_of_finite ha
  obtain ⟨bNan, bInf⟩ := not_nan_of_finite hb
  simp only [mul32, aNan, bNan, aInf, bInf, Bool.or_self, Bool.false_eq_true, if_false]

theorem div32_of_finite {a b : Word} (ha : isFinite a = true) (hb : isFinite b = true) (hz : isZero b = false) :
    div32 a b = withSign (signBit a != signBit b) (roundQuot (magUnits a * 2 ^ 149) (magUnits b)) := by
  obtain ⟨aNan, aInf⟩ := not_nan_of_finite ha
  obtain ⟨bNan, bInf⟩ := not_nan_of_finite hb
  simp only [div32, aNan, bNan, aInf, bInf, hz, Bool.or_self, Bool.false_eq_true, if_false]

theorem sqrt32_of_isZero {a : Word} (ha : isFinite a = true) (hz : isZero a = true) : sqrt32 a = a := by
  simp [sqrt32, (not_nan_of_finite ha).1, hz]

theorem sqrt32_of_pos {a : Word} (ha : isFinite a = true) (hz : isZero a = false) (hs : signBit a = false) :
    sqrt32 a = withSign false (roundSqrt (magUnits a * 2 ^ 149)) := by
  obtain ⟨aNan, aInf⟩ := not_nan_of_finite ha
  simp only [sqrt32, aNan, aInf, hz, hs, Bool.false_eq_true, if_false]

/-- Either signed zero is a rounding of zero. -/
theorem roundsTo_zero (neg : Bool) : RoundsTo 0 (withSign neg 0) := by
  have h : NearestField (|(0 : ℝ)| * 2 ^ 149) 0 := by
    simpa [fieldUnits_zero] using nearestField_self 0
  simpa using roundsTo_of (neg := neg) h (fun h => absurd h (lt_irrefl 0)) (fun h => absurd h (lt_irrefl 0))

/-- `roundQuot` with a sign rounds the signed quotient, counted in multiples of `2^-149`. -/
theorem roundsTo_roundQuot {y : ℝ} (hy : 0 ≤ y) (neg : Bool) {n d : Nat} (hd : 0 < d) (h : y * 2 ^ 149 = (n : ℝ) / d) :
    RoundsTo (if neg = true then -y else y) (withSign neg (roundQuot n d)) := by
  rw [roundQuot_eq]
  exact roundsTo_signed hy (h ▸ rawQuot_nearest n hd)

theorem add32_roundsTo {a b : Word} (ha : isFinite a = true) (hb : isFinite b = true) :
    RoundsTo ((valueOf a + valueOf b : ℚ) : ℝ) (add32 a b) := by
  have hsum : ((valueOf a + valueOf b : ℚ) : ℝ) = ((units a + units b : ℤ) : ℝ) / 2 ^ 149 := by
    simp only [valueOf]; push_cast; exact (add_div _ _ _).symm
  rw [add32_of_finite ha hb, hsum]
  generalize units a + units b = sum
  split
  · next h0 => simpa [h0] using roundsTo_zero (signBit a && signBit b)
  · have hmag : (sum.natAbs : ℝ) / 2 ^ 149 * 2 ^ 149 = (sum.natAbs : ℝ) / (1 : ℕ) := by simp
    have hr := roundsTo_roundQuot (by positivity) (decide (sum < 0)) one_pos hmag
    have habs : (sum.natAbs : ℝ) = |(sum : ℝ)| := by rw [Nat.cast_natAbs, Int.cast_abs]
    rw [habs] at hr
    convert hr using 1
    by_cases hneg : sum < 0
    · have : (sum : ℝ) < 0 := by exact_mod_cast hneg
      simp [hneg, abs_of_neg this, neg_div]
    · have : (0 : ℝ) ≤ sum := by exact_mod_cast not_lt.mp hneg
      simp [hneg, abs_of_nonneg this]

/-- Subtraction is addition of the negation, whose value is the negated value. -/
theorem sub32_roundsTo {a b : Word} (ha : isFinite a = true) (hb : isFinite b = true) :
    RoundsTo ((valueOf a - valueOf b : ℚ) : ℝ) (sub32 a b) := by
  have hneg : valueOf (neg32 b) = -valueOf b := by
    simp only [valueOf, units_neg32]; push_cast; exact neg_div _ _
  rw [sub32_eq_add32 ha hb, sub_eq_add_neg, ← hneg]
  exact add32_roundsTo ha (isFinite_neg32 hb)

theorem mul32_roundsTo {a b : Word} (ha : isFinite a = true) (hb : isFinite b = true) :
    RoundsTo ((valueOf a * valueOf b : ℚ) : ℝ) (mul32 a b) := by
  have hmag : (magUnits a : ℝ) / 2 ^ 149 * (magUnits b / 2 ^ 149) * 2 ^ 149 =
      ((magUnits a * magUnits b : ℕ) : ℝ) / (2 ^ 149 : ℕ) := by
    simp only [Nat.cast_mul, Nat.cast_pow, Nat.cast_ofNat]; field_simp
  have hr := roundsTo_roundQuot (by positivity) (signBit a != signBit b) (Nat.two_pow_pos 149) hmag
  rw [mul32_of_finite ha hb]
  convert hr using 1
  rw [valueOf_eq_sign_mag a, valueOf_eq_sign_mag b]
  cases signBit a <;> cases signBit b <;> simp

theorem div32_roundsTo {a b : Word} (ha : isFinite a = true) (hb : isFinite b = true) (hz : isZero b = false) :
    RoundsTo ((valueOf a / valueOf b : ℚ) : ℝ) (div32 a b) := by
  have hpos := magUnits_pos hz
  have hmag : (magUnits a : ℝ) / 2 ^ 149 / (magUnits b / 2 ^ 149) * 2 ^ 149 =
      ((magUnits a * 2 ^ 149 : ℕ) : ℝ) / magUnits b := by
    simp only [Nat.cast_mul, Nat.cast_pow, Nat.cast_ofNat]; field_simp
  have hr := roundsTo_roundQuot (by positivity) (signBit a != signBit b) hpos hmag
  rw [div32_of_finite ha hb hz]
  convert hr using 1
  rw [valueOf_eq_sign_mag a, valueOf_eq_sign_mag b]
  cases signBit a <;> cases signBit b <;> simp [neg_div, div_neg]

/-- The root of `m` multiples of `2^-149`, counted in those multiples again. -/
theorem sqrt_in_units (m : Nat) : √((m : ℝ) / 2 ^ 149) * 2 ^ 149 = √((m * 2 ^ 149 : ℕ) : ℝ) := by
  symm
  rw [Real.sqrt_eq_iff_mul_self_eq (by positivity) (by positivity), mul_mul_mul_comm, Real.mul_self_sqrt (by positivity)]
  simp only [Nat.cast_mul, Nat.cast_pow, Nat.cast_ofNat]
  field_simp

theorem sqrt32_roundsTo {a : Word} (ha : isFinite a = true) (h0 : 0 ≤ valueOf a) :
    RoundsTo (Real.sqrt (valueOf a : ℝ)) (sqrt32 a) := by
  cases hz : isZero a
  · have hs := signBit_eq_false_of_nonneg h0 hz
    have hval : ((valueOf a : ℚ) : ℝ) = (magUnits a : ℝ) / 2 ^ 149 := by simp [valueOf_eq_sign_mag, hs]
    rw [sqrt32_of_pos ha hz hs, roundSqrt_eq, hval]
    exact roundsTo_signed (neg := false) (Real.sqrt_nonneg _) (sqrt_in_units _ ▸ rawSqrt_nearest _)
  · have hzero := roundsTo_zero (signBit a)
    rw [← eq_withSign_of_isZero hz] at hzero
    rw [sqrt32_of_isZero ha hz, valueOf_eq_zero hz]
    simpa using hzero

/-! ### The comparisons (R12) -/

theorem gt32_eq_lt32 (a b : Word) : gt32 a b = lt32 b a := by
  rw [Bool.eq_iff_iff, gt32_iff, lt32_iff]; tauto

theorem lt32_iff_valueOf {a b : Word} (ha : isFinite a = true) (hb : isFinite b = true) :
    lt32 a b = true ↔ valueOf a < valueOf b := by
  rw [lt32_iff, valueOf_lt, orderKey_lt_iff]
  simp [not_nan_of_finite ha, not_nan_of_finite hb]

theorem ge32_iff_valueOf {a b : Word} (ha : isFinite a = true) (hb : isFinite b = true) :
    ge32 a b = true ↔ valueOf b ≤ valueOf a := by
  have hle : valueOf b ≤ valueOf a ↔ orderKey b ≤ orderKey a := by
    rw [← not_lt, valueOf_lt, not_lt, units_le_iff_orderKey]
  rw [ge32_iff, hle]
  simp [not_nan_of_finite ha, not_nan_of_finite hb]

theorem comparisons_false_of_nan {a b : Word} (h : isNaN a = true ∨ isNaN b = true) :
    gt32 a b = false ∧ lt32 a b = false ∧ ge32 a b = false := by
  rcases h with h | h <;> simp [gt32, lt32, ge32, h]

/-- A finite pattern stands strictly between the two infinities in the order. -/
theorem orderKey_finite_bounds {a : Word} (ha : isFinite a = true) :
    orderKey 0xFF800000#32 < orderKey a ∧ orderKey a < orderKey 0x7F800000#32 := by
  have hlt := (isFinite_iff a).mp ha
  have hneg : orderKey 0xFF800000#32 = -(infMag : Int) := by decide
  have hpos : orderKey 0x7F800000#32 = (infMag : Int) := by decide
  rw [hneg, hpos]
  unfold orderKey
  split <;> omega

theorem infinities_beyond_finite {a : Word} (ha : isFinite a = true) :
    gt32 0x7F800000#32 a = true ∧ lt32 0xFF800000#32 a = true ∧ gt32 a 0x7F800000#32 = false := by
  obtain ⟨hlo, hhi⟩ := orderKey_finite_bounds ha
  have hnan := (not_nan_of_finite ha).1
  refine ⟨gt32_iff.mpr ⟨by decide, hnan, hhi⟩, lt32_iff.mpr ⟨by decide, hnan, hlo⟩, ?_⟩
  rw [Bool.eq_false_iff]
  intro h
  obtain ⟨-, -, habove⟩ := gt32_iff.mp h
  exact habove.not_gt hhi

end Sys2Proof.Machine

open Sys2Proof Sys2Proof.Machine

/-- Settles O24: the integer sum is exact, and `roundQuot` narrows it once. -/
theorem addSubCorrectlyRounded : Obligations.AddSubCorrectlyRounded :=
  fun _ _ ha hb => ⟨add32_roundsTo ha hb, sub32_roundsTo ha hb⟩

/-- Settles O25: signs multiply apart from the magnitudes, whose product or quotient `roundQuot` narrows once. -/
theorem mulDivCorrectlyRounded : Obligations.MulDivCorrectlyRounded :=
  fun _ _ ha hb => ⟨mul32_roundsTo ha hb, div32_roundsTo ha hb⟩

/-- Settles O26: a zero is its own root, and any other root is `roundSqrt` of the magnitude. -/
theorem sqrtCorrectlyRounded : Obligations.SqrtCorrectlyRounded :=
  fun _ ha h0 => sqrt32_roundsTo ha h0

/-- Settles O27: the order of the bit fields is the order of the values. -/
theorem comparisonsOrderValues : Obligations.ComparisonsOrderValues :=
  ⟨fun a b ha hb => ⟨gt32_eq_lt32 a b ▸ lt32_iff_valueOf hb ha, lt32_iff_valueOf ha hb, ge32_iff_valueOf ha hb⟩,
    fun _ _ => comparisons_false_of_nan, fun _ => infinities_beyond_finite⟩

/-- Settles O52: the operations of a cycle do not depend on the latency, which enters at the clock edge alone. -/
theorem latencyChangesOnlyOutputs : Obligations.LatencyChangesOnlyOutputs := by
  intro lat lat' s t h
  obtain ⟨hrun, rfl⟩ := cycle_cases.mp h
  exact ⟨_, cycle_of hrun, rfl, rfl, rfl, rfl, rfl⟩

end

section
/-! PROOFS. The state statements: what a clock edge keeps of the effects in the output pipeline, what every step keeps of the
whole state (spec/10_state.md R16, R19, R24), the reset values (R26), and the refusals before the first RESET (R27). -/

namespace Sys2Proof.Machine

variable {s t : State}

/-! ### Effects that are legal, effects that are in range -/

/-- The part of `Legal` that speaks of one cycle's effects (R19, R86). -/
structure EffectsLegal (e : Effects) : Prop where
  upperLegal : legalUpper e.upper
  lowerLegal : legalLower e.lower
  kickSample : kickHasSample e.sample e.kick

/-- The part of `RangesKept` that speaks of one cycle's effects (R70, R78). -/
structure EffectsInRange (e : Effects) : Prop where
  sample : ∀ x ∈ e.sample, regularSample x
  kick : ∀ i ∈ e.kick, kickInRange i

theorem Legal.pipe_effects (h : Legal s) : ∀ e ∈ s.pipe, EffectsLegal e := fun e he =>
  ⟨(h.pipeLegal e he).1, (h.pipeLegal e he).2, h.pipeKick e he⟩

theorem clampFloor_ge {floor : Word} (hf : ge32 floor floor = true) (p : Word) : ge32 (clampFloor p floor) floor = true := by
  unfold clampFloor
  split
  · assumption
  · exact hf

theorem clampFloor_legalUpper (p : Word) : legalUpper (clampFloor p upperFloor) := clampFloor_ge (by decide) p

theorem clampFloor_legalLower (p : Word) : legalLower (clampFloor p lowerFloor) := clampFloor_ge (by decide) p

/-! ### The clock edge (R85) -/

theorem clockPipe_nil (lat : Nat) (e : Effects) :
    clockPipe lat [] e = if 1 < lat then (none, [e]) else (some e, []) := by
  simp [clockPipe]

/-- The clock edge makes up no effects: what it holds or shows was in the pipeline or is the ending cycle's. -/
theorem clockPipe_mem {lat : Nat} {pipe : List Effects} {e d : Effects}
    (h : d ∈ (clockPipe lat pipe e).2 ∨ d ∈ (clockPipe lat pipe e).1) : d ∈ pipe ∨ d = e := by
  rcases clockPipe_cases lat pipe e with ⟨-, hc⟩ | ⟨-, rfl, hc⟩ | ⟨-, oldest, rest, rfl, hc⟩ <;> rw [hc] at h
  · simpa using h
  · simpa [eq_comm] using h
  · simp only [List.mem_append, Option.mem_some_iff, List.mem_cons] at h ⊢
    tauto

/-- A property of the ending cycle's effects and of those in the pipeline is one of all that the clock edge holds or
shows. -/
theorem clockPipe_forall {P : Effects → Prop} {lat : Nat} {pipe : List Effects} {e : Effects} (he : P e)
    (hp : ∀ d ∈ pipe, P d) : (∀ d ∈ (clockPipe lat pipe e).2, P d) ∧ ∀ d ∈ (clockPipe lat pipe e).1, P d := by
  have hall : ∀ d, d ∈ pipe ∨ d = e → P d := by
    rintro d (hd | rfl)
    · exact hp d hd
    · exact he
  exact ⟨fun d hd => hall d (clockPipe_mem (.inl hd)), fun d hd => hall d (clockPipe_mem (.inr hd))⟩

theorem present_kickHasSample {shown : Option Effects} (n : Nat) (h : ∀ e ∈ shown, EffectsLegal e)
    (hk : (present shown n).kickValid = true) : (present shown n).smpValid = true := by
  cases shown with
  | none => cases hk
  | some e => exact (h e rfl).kickSample hk

theorem present_smp_regular {shown : Option Effects} (n : Nat) (h : ∀ e ∈ shown, EffectsInRange e)
    (hv : (present shown n).smpValid = true) : regularSample (present shown n).smp := by
  cases shown with
  | none => cases hv
  | some e =>
    obtain ⟨x, hx⟩ := Option.isSome_iff_exists.mp hv
    rw [present_some_smp, hx]
    exact (h e rfl).sample x hx

theorem present_kick_inRange {shown : Option Effects} (n : Nat) (h : ∀ e ∈ shown, EffectsInRange e)
    (hv : (present shown n).kickValid = true) : kickInRange (present shown n).kickIntensity := by
  cases shown with
  | none => cases hv
  | some e =>
    obtain ⟨i, hi⟩ := Option.isSome_iff_exists.mp hv
    rw [present_some_kickIntensity, hi]
    exact (h e rfl).kick i hi

/-- What the operations of a cycle owe the clock edge for the next state to be legal. -/
theorem endCycle_legal (hwindow : s.window.length < frameLen) (hshort : s.pipe.length < Config.decLatency)
    (heffects : EffectsLegal (cycleEffects s)) (hpipe : ∀ e ∈ s.pipe, EffectsLegal e) :
    Legal (endCycle Config.decLatency s) := by
  obtain ⟨hheld, hshown⟩ := clockPipe_forall (lat := Config.decLatency) heffects hpipe
  exact {
    windowShort := hwindow
    upperLegal := heffects.upperLegal
    lowerLegal := heffects.lowerLegal
    pipeShort := clockPipe_length_lt _ hshort
    pipeLegal := fun e he => ⟨(hheld e he).upperLegal, (hheld e he).lowerLegal⟩
    stageKick := heffects.kickSample
    pipeKick := fun e he => (hheld e he).kickSample
    portKick := present_kickHasSample _ hshown }

/-- What the operations of a cycle owe the clock edge for the next state to keep the ranges. -/
theorem endCycle_rangesKept (lat : Nat) (heffects : EffectsInRange (cycleEffects s))
    (hpipe : ∀ e ∈ s.pipe, EffectsInRange e) : RangesKept (endCycle lat s) := by
  obtain ⟨hheld, hshown⟩ := clockPipe_forall (lat := lat) heffects hpipe
  exact {
    stageSample := heffects.sample
    stageKick := heffects.kick
    pipeSample := fun e he => (hheld e he).sample
    pipeKick := fun e he => (hheld e he).kick
    portSample := present_smp_regular _ hshown
    portKick := present_kick_inRange _ hshown }

/-! ### The operations of a cycle (R84) -/

theorem cycleBody_rst {p : PortIn} (h : p.rst = true) (s : State) : cycleBody p s = hardReset s := by
  rw [cycleBody, if_pos h]

theorem cycleBody_no_rst {p : PortIn} (h : p.rst = false) (s : State) :
    cycleBody p s = configStage p (rearmStage p (byteStage p s)) := by
  simp [cycleBody, h]

theorem configStage_legalUpper (p : PortIn) (h : legalUpper s.upper) : legalUpper (configStage p s).upper := by
  rw [configStage_upper]
  split
  · exact clampFloor_legalUpper _
  · exact h

theorem configStage_legalLower (p : PortIn) (h : legalLower s.lower) : legalLower (configStage p s).lower := by
  rw [configStage_lower]
  split
  · exact clampFloor_legalLower _
  · exact h

/-- The byte group makes a kick only beside the sample it evaluates (R55, R86). -/
theorem byteStage_kickHasSample (p : PortIn) (hs : s.cycleSample = none) (hk : s.cycleKick = none) :
    kickHasSample (byteStage p s).cycleSample (byteStage p s).cycleKick := by
  rcases byteStage_cases p s hs hk with ⟨-, hnone, -⟩ | ⟨f, hsome, -⟩
  · simp [hnone]
  · exact fun _ => by simp [hsome]

/-- The effects of the operations of a cycle without RESET. -/
theorem operations_effects_legal (p : PortIn) (hs : s.cycleSample = none) (hk : s.cycleKick = none)
    (hu : legalUpper s.upper) (hl : legalLower s.lower) :
    EffectsLegal (cycleEffects (configStage p (rearmStage p (byteStage p s)))) where
  upperLegal := configStage_legalUpper p (by simpa using hu)
  lowerLegal := configStage_legalLower p (by simpa using hl)
  kickSample := by simpa using byteStage_kickHasSample p hs hk

theorem hardReset_effects (s : State) : cycleEffects (hardReset s) = resetEffects := rfl

theorem resetEffects_legal : EffectsLegal resetEffects := ⟨by decide, by decide, nofun⟩

theorem resetEffects_inRange : EffectsInRange resetEffects := ⟨nofun, nofun⟩

/-! ### A RESET cycle, from any state (R26, R99) -/

theorem endCycle_hardReset_legal (s : State) : Legal (endCycle Config.decLatency (hardReset s)) :=
  endCycle_legal (by simp [frameLen]) decLatency_pos (hardReset_effects s ▸ resetEffects_legal) nofun

theorem endCycle_hardReset_rangesKept (lat : Nat) (s : State) : RangesKept (endCycle lat (hardReset s)) :=
  endCycle_rangesKept lat (hardReset_effects s ▸ resetEffects_inRange) nofun

/-- The reset state is what a RESET cycle leaves of a block that nothing drives and that has drawn no free value. -/
theorem resetAt_eq_endCycle (lat : Nat) :
    State.resetAt lat = endCycle lat (hardReset { State.resetAt lat with freeCount := 0 }) := rfl

/-! ### Steps -/

/-- A RESET cycle makes any state legal, and every other cycle keeps a legal state legal. -/
theorem step_legal (hs : (nextPorts s).rst = true ∨ Legal s) (h : step s = .next t) : Legal t := by
  obtain ⟨-, rfl⟩ := step_iff.mp h
  cases hrst : (nextPorts s).rst
  case true =>
    rw [cycleBody_rst hrst]
    exact endCycle_hardReset_legal _
  case false =>
    have hlegal : Legal s := by simpa [hrst] using hs
    rw [cycleBody_no_rst hrst]
    refine endCycle_legal ?_ ?_ (operations_effects_legal _ rfl rfl hlegal.upperLegal hlegal.lowerLegal) ?_
    · simpa using byteStage_window_short _ (beginCycle s) hlegal.windowShort
    · simpa using hlegal.pipeShort
    · simpa using hlegal.pipe_effects

theorem execAll_cons_refused {i : Instr} {r : Refusal} (rest : List Instr) (h : exec i s = .refused r) :
    execAll (i :: rest) s = .refused r := by
  simp only [execAll, h]

/-- A cycle without `rst` selects some operation, and its first one is refused (R27). -/
theorem cycle_before_reset (lat : Nat) (hs : s.resetSeen = false) (hrst : (nextPorts s).rst = false) :
    cycle lat s = .refused .beforeFirstReset := by
  obtain ⟨i, rest, hops⟩ := List.exists_cons_of_ne_nil (decodePorts_ne_nil (nextPorts s))
  obtain ⟨hne, hwf⟩ := decodePorts_no_reset hrst i (by simp [hops])
  have hi : exec i (beginCycle s) = .refused .beforeFirstReset := exec_before_reset (by simpa using hs) hwf hne
  simp only [cycle, hops, execAll_cons_refused rest hi]

end Sys2Proof.Machine

open Sys2Proof Sys2Proof.Machine

/-- Settles O53: before the first RESET only a RESET cycle completes, and it needs no legal state to start from. -/
theorem stepKeepsInvariant : Obligations.StepKeepsInvariant := by
  intro s t hinv hstep _
  obtain ⟨hrun, -⟩ := step_iff.mp hstep
  exact step_legal (hrun.imp_right hinv) hstep

/-- Settles O15: a cycle is refused at its first operation. -/
theorem nothingRunsBeforeFirstReset : Obligations.NothingRunsBeforeFirstReset :=
  fun _ hs => ⟨fun _ hwf hne => exec_before_reset hs hwf hne, cycle_before_reset Config.decLatency hs⟩

/-- Settles O16: with latency 1 the pipeline shows the reset effects at once, with any longer one it still holds them. -/
theorem resetStateHasResetValues : Obligations.ResetStateHasResetValues := by
  refine ⟨reset_eq, fun lat => ⟨rfl, rfl, rfl, rfl, rfl, rfl, ?_⟩, rfl, rfl, rfl, rfl⟩
  rw [resetAt_pipe, resetAt_ports, clockPipe_nil]
  split
  · simp [resetEffects]
  · simp [resetEffects]

/-- Settles O54: the reset state is one that a RESET cycle leaves. -/
theorem resetStateIsLegal : Obligations.ResetStateIsLegal := by
  unfold Obligations.ResetStateIsLegal
  rw [reset_eq, resetAt_eq_endCycle]
  exact endCycle_hardReset_legal _

/-- Settles O56: the reset state is one that a RESET cycle leaves. -/
theorem resetStateKeepsRanges : Obligations.ResetStateKeepsRanges := by
  unfold Obligations.ResetStateKeepsRanges
  rw [reset_eq, resetAt_eq_endCycle]
  exact endCycle_hardReset_rangesKept _ _

end

section
/-! PROOFS. The encoding statements: what a control vector and a full window select, and that the encoder is their inverse
(spec/30_encoding.md R43 to R52). -/

namespace Sys2Proof.Machine

/-! ### The groups of a control vector (R47) -/

theorem byteGroup_eq (p : PortIn) : byteGroup p =
    if (!p.rst && p.inValid && !p.inLast) = true then [.byte p.inData]
    else if (!p.rst && p.inValid && p.inLast) = true then [.byteLast p.inData]
    else [] := by
  simp only [byteGroup, selects_byte, selects_byteLast]

theorem rearmGroup_eq (p : PortIn) : rearmGroup p = if (!p.rst && p.rearm) = true then [.rearm] else [] := by
  simp only [rearmGroup, selects_rearm]

theorem configGroup_eq (p : PortIn) : configGroup p =
    if (!p.rst && p.cfgUpperWe && !p.cfgLowerWe) = true then [.setUpper p.cfgUpperWdata]
    else if (!p.rst && !p.cfgUpperWe && p.cfgLowerWe) = true then [.setLower p.cfgLowerWdata]
    else if (!p.rst && p.cfgUpperWe && p.cfgLowerWe) = true then [.setThresholds p.cfgUpperWdata p.cfgLowerWdata]
    else [] := by
  simp only [configGroup, selects_setUpper, selects_setLower, selects_setThresholds]

theorem byteGroup_of_not_valid {p : PortIn} (h : p.inValid = false) : byteGroup p = [] := by
  simp [byteGroup_eq, h]

theorem configGroup_of_no_upper {p : PortIn} (h : p.cfgUpperWe = false) :
    configGroup p = if (!p.rst && p.cfgLowerWe) = true then [.setLower p.cfgLowerWdata] else [] := by
  simp [configGroup_eq, h]

theorem configGroup_of_no_lower {p : PortIn} (h : p.cfgLowerWe = false) :
    configGroup p = if (!p.rst && p.cfgUpperWe) = true then [.setUpper p.cfgUpperWdata] else [] := by
  simp [configGroup_eq, h]

theorem decodePorts_idle {p : PortIn} (hrst : p.rst = false) (hvalid : p.inValid = false) (hrearm : p.rearm = false)
    (hupper : p.cfgUpperWe = false) (hlower : p.cfgLowerWe = false) : decodePorts p = [.idle] := by
  simp [decodePorts_eq, hrst, hvalid, hrearm, hupper, hlower]

/-- One strobe at 1 is enough for the cycle not to be IDLE. -/
theorem decodePorts_groups {p : PortIn} (hrst : p.rst = false)
    (hsome : p.inValid = true ∨ p.rearm = true ∨ p.cfgUpperWe = true ∨ p.cfgLowerWe = true) :
    decodePorts p = byteGroup p ++ rearmGroup p ++ configGroup p := by
  have hidle : (!p.inValid && !p.cfgUpperWe && !p.cfgLowerWe && !p.rearm) = false := by
    rcases hsome with h | h | h | h <;> simp [h]
  rw [decodePorts_eq, hrst, hidle]
  rfl

/-- Cycles whose strobes agree and whose byte and config groups agree perform the same operations. -/
theorem decodePorts_congr {p q : PortIn} (hrst : q.rst = p.rst) (hvalid : q.inValid = p.inValid)
    (hrearm : q.rearm = p.rearm) (hupper : q.cfgUpperWe = p.cfgUpperWe) (hlower : q.cfgLowerWe = p.cfgLowerWe)
    (hbyte : byteGroup q = byteGroup p) (hconfig : configGroup q = configGroup p) : decodePorts q = decodePorts p := by
  rw [decodePorts_eq q, decodePorts_eq p, rearmGroup_eq q, rearmGroup_eq p, hbyte, hconfig, hrst, hvalid, hrearm, hupper,
    hlower]

/-! ### A full window (R45, R53) -/

/-- Everything a window that is tested can select. -/
theorem decodeWindow_eq_ok {w : List Byte} {i : Instr} (h : decodeWindow w = .ok i) :
    w.length = frameLen ∧
      ((isHeader (w.getD 0 0#8) (w.getD 1 0#8) = true ∧ i = .frameDecode (frameOf w)) ∨
       (isHeader (w.getD 0 0#8) (w.getD 1 0#8) = false ∧ i = .windowSkip (w.getD 0 0#8) (w.getD 1 0#8))) := by
  by_cases hl : w.length = frameLen
  · refine ⟨hl, ?_⟩
    cases hh : isHeader (w.getD 0 0#8) (w.getD 1 0#8)
    · rw [decodeWindow_skip hl hh] at h
      exact .inr ⟨rfl, (Except.ok.inj h).symm⟩
    · rw [decodeWindow_frame hl hh] at h
      exact .inl ⟨rfl, (Except.ok.inj h).symm⟩
  · rw [decodeWindow_notFull hl] at h
    cases h

theorem decodeWindow_frameBytes (f : RawFrame) : decodeWindow (frameBytes f) = .ok (.frameDecode f) := by
  rw [decodeWindow_frame (frameBytes_length f) rfl, frameOf_frameBytes]

/-- A full window, read byte by byte. -/
theorem map_getD_range {w : List Byte} (hl : w.length = frameLen) : (List.range 20).map (w.getD · 0#8) = w := by
  refine List.ext_getElem (by simp [hl, frameLen]) fun n _ hn => ?_
  simp [hn]

/-- The header and the eighteen bytes behind the nine fields are the whole window (R43). -/
theorem frameBytes_frameOf {w : List Byte} (hl : w.length = frameLen)
    (hh : isHeader (w.getD 0 0#8) (w.getD 1 0#8) = true) : frameBytes (frameOf w) = w := by
  obtain ⟨h0, h1⟩ := (isHeader_iff _ _).mp hh
  calc frameBytes (frameOf w)
      = [w.getD 0 0#8, w.getD 1 0#8] ++ (List.range 18).map (fun k => w.getD (2 + k) 0#8) := by
        simp only [frameBytes, frameOf, fieldBytes_fieldOf, h0, h1]
        rfl
    _ = (List.range 20).map (w.getD · 0#8) := rfl
    _ = w := map_getD_range hl

/-! ### The byte that fills the window (R53) -/

theorem exec_byte (b : Byte) (s : State) : exec (.byte b) s = afterReset s (windowTest (appendByte s b)) := rfl

end Sys2Proof.Machine

open Sys2Proof Sys2Proof.Machine

/-- Settles O17: each group reads its own strobes, and a strobe at 1 rules IDLE out. -/
theorem controlVectorSelectsOperations : Obligations.ControlVectorSelectsOperations := by
  refine fun p => ⟨decodePorts_rst, decodePorts_idle, fun hrst hsome => ?_⟩
  rw [decodePorts_groups hrst hsome]
  congr 1
  · congr 1
    · rw [byteGroup_eq, hrst]
      cases p.inValid <;> cases p.inLast <;> rfl
    · rw [rearmGroup_eq, hrst]
      rfl
  · rw [configGroup_eq, hrst]
    cases p.cfgUpperWe <;> cases p.cfgLowerWe <;> rfl

/-- Settles O20: the line code of an operation raises its own strobes alone, and the bytes of a frame give its fields
back. -/
theorem decodeEncodeAgree : Obligations.DecodeEncodeAgree := by
  refine ⟨fun i c hwf hc => ?_, fun i => ⟨fun h => ?_, ?_⟩⟩
  · have selected := fun p => (controlVectorSelectsOperations p).2.2
    cases i with
    | reset => cases hc; exact congrArg Except.ok (decodePorts_rst rfl)
    | idle => cases hc; exact congrArg Except.ok (decodePorts_idle rfl rfl rfl rfl rfl)
    | byte b => cases hc; exact congrArg Except.ok (selected _ rfl (.inl rfl))
    | byteLast b => cases hc; exact congrArg Except.ok (selected _ rfl (.inl rfl))
    | rearm => cases hc; exact congrArg Except.ok (selected _ rfl (.inr (.inl rfl)))
    | setUpper p => cases hc; exact congrArg Except.ok (selected _ rfl (.inr (.inr (.inl rfl))))
    | setLower p => cases hc; exact congrArg Except.ok (selected _ rfl (.inr (.inr (.inr rfl))))
    | setThresholds pu pl => cases hc; exact congrArg Except.ok (selected _ rfl (.inr (.inr (.inl rfl))))
    | frameDecode f => cases hc; simp only [decode, decodeWindow_frameBytes, Except.map]
    | windowSkip w0 w1 =>
      cases hc
      have hskip : isHeader w0 w1 = false := by simpa [Instr.wellFormed] using hwf
      simp only [decode, decodeWindow_skip (w := w0 :: w1 :: List.replicate 18 0#8) rfl hskip, Except.map]
      rfl
    | process v => cases hc
  · cases i with
    | process v => exact ⟨v, rfl⟩
    | _ => cases h
  · rintro ⟨v, rfl⟩
    rfl

/-- Settles O18: an input that its strobe masks reaches no group, and every value of the ports selects operations that
complete. -/
theorem ignoredInputsChangeNothing : Obligations.IgnoredInputsChangeNothing := by
  refine ⟨fun p x h => ?_, fun p x h => ?_, fun p x h => ?_, fun p x h => ?_, fun p s hs => ?_⟩
  · refine decodePorts_congr rfl rfl rfl rfl rfl ?_ ?_
    · exact .trans (byteGroup_of_not_valid h) (byteGroup_of_not_valid h).symm
    · exact (configGroup_eq _).trans (configGroup_eq p).symm
  · exact decodePorts_congr rfl rfl rfl rfl rfl (.trans (byteGroup_of_not_valid h) (byteGroup_of_not_valid h).symm) rfl
  · exact decodePorts_congr rfl rfl rfl rfl rfl rfl
      (.trans (configGroup_of_no_upper h) (configGroup_of_no_upper h).symm)
  · exact decodePorts_congr rfl rfl rfl rfl rfl rfl
      (.trans (configGroup_of_no_lower h) (configGroup_of_no_lower h).symm)
  · exact ⟨_, step_of (.inr (by simpa using hs))⟩

/-- Settles O21: only a full window that begins with the header decodes to a frame, and its fields hold its other bytes. -/
theorem frameDecodingDropsNoBit : Obligations.FrameDecodingDropsNoBit := by
  intro w f h
  obtain ⟨hl, ⟨hh, hf⟩ | ⟨-, hskip⟩⟩ := decodeWindow_eq_ok h
  · cases hf
    exact frameBytes_frameOf hl hh
  · cases hskip

/-- Settles O19: the window test reads the length and the first two bytes only. -/
theorem headerAloneDecidesWindow : Obligations.HeaderAloneDecidesWindow :=
  fun _ => ⟨fun hl h0 h1 => ⟨_, decodeWindow_frame hl ((isHeader_iff _ _).mpr ⟨h0, h1⟩)⟩,
    fun hl h => decodeWindow_skip hl (isHeader_eq_false h), decodeWindow_notFull⟩

/-- Settles O22: closed codes, each decoded by evaluation. -/
theorem writtenOutCodesDecode : Obligations.WrittenOutCodesDecode :=
  ⟨rfl, rfl, rfl, rfl, rfl, rfl, rfl, rfl, rfl, rfl, rfl, rfl⟩

/-- Settles O41: the window test performs what the decoder answers for the window the byte has filled. -/
theorem byteRunsDecodedWindow : Obligations.ByteRunsDecodedWindow := by
  intro b s i _ h
  obtain ⟨hl, ⟨hh, rfl⟩ | ⟨hh, rfl⟩⟩ := decodeWindow_eq_ok h
  · rw [exec_byte, windowTest_frame hl hh]
    rfl
  · rw [exec_byte, windowTest_skip hl hh]
    rfl

end

section
/-! PROOFS. The buffer statements: the source's scan as a relation between a buffer, its samples and what is left of it
(spec/40_frame_decoder.md R65), and a delivery as a run of the block along that relation. -/

namespace Sys2Proof.Machine

/-! ### The scan of a buffer (R65) -/

/-- `ScansTo bytes samples rest`: the source's scan of `bytes` makes `samples` and stops before `rest`. One constructor
for each outcome of a test at the scan position; `scanFrom_eq` and `scan_eq` tie it to `scan` and `scanRest`. -/
inductive ScansTo : List Byte → List Sample → List Byte → Prop where
  | short {bytes : List Byte} : bytes.length < 20 → ScansTo bytes [] bytes
  | frame (f : RawFrame) {bytes : List Byte} {samples : List Sample} {rest : List Byte} :
    ScansTo bytes samples rest → ScansTo (frameBytes f ++ bytes) (decodeFrame f :: samples) rest
  | skip {b : Byte} {bytes : List Byte} {samples : List Sample} {rest : List Byte} :
    20 ≤ (b :: bytes).length → ¬ (b = 0x55#8 ∧ bytes.getD 0 0#8 = 0x61#8) → ScansTo bytes samples rest →
    ScansTo (b :: bytes) samples rest

theorem restFrom_frame (f : RawFrame) (fuel : Nat) (bytes : List Byte) :
    restFrom (fuel + 1) (frameBytes f ++ bytes) = restFrom fuel bytes := by
  rw [restFrom, if_neg (by simp), if_pos ⟨rfl, rfl⟩, List.drop_left' (frameBytes_length f)]

theorem scanFrom_skip (fuel : Nat) {b : Byte} {bytes : List Byte} (hl : 20 ≤ (b :: bytes).length)
    (hh : ¬ (b = 0x55#8 ∧ bytes.getD 0 0#8 = 0x61#8)) :
    scanFrom (fuel + 1) (b :: bytes) = scanFrom fuel bytes ∧ restFrom (fuel + 1) (b :: bytes) = restFrom fuel bytes := by
  have hh' : ¬ ((b :: bytes).getD 0 0#8 = 0x55#8 ∧ (b :: bytes).getD 1 0#8 = 0x61#8) := hh
  rw [scanFrom, restFrom, if_neg hl.not_gt, if_neg hl.not_gt, if_neg hh', if_neg hh']
  exact ⟨rfl, rfl⟩

/-- The relation is the scan, for every fuel that suffices. -/
theorem ScansTo.scanFrom_eq {bytes : List Byte} {samples : List Sample} {rest : List Byte}
    (h : ScansTo bytes samples rest) :
    ∀ fuel, bytes.length ≤ fuel → scanFrom fuel bytes = samples ∧ restFrom fuel bytes = rest := by
  induction h with
  | short hl => exact fun fuel _ => ⟨scanFrom_short fuel hl, restFrom_short fuel hl⟩
  | @frame f bytes samples rest _ ih =>
    intro fuel hfuel
    rw [List.length_append, frameBytes_length] at hfuel
    obtain ⟨fuel, rfl⟩ := Nat.exists_eq_add_of_lt (show 0 < fuel by omega)
    obtain ⟨hscan, hrest⟩ := ih (0 + fuel) (by omega)
    exact ⟨by rw [scanFrom_frame, hscan], by rw [restFrom_frame, hrest]⟩
  | @skip b bytes samples rest hl hh _ ih =>
    intro fuel hfuel
    rw [List.length_cons] at hfuel
    obtain ⟨fuel, rfl⟩ := Nat.exists_eq_add_of_lt (show 0 < fuel by omega)
    obtain ⟨hscan, hrest⟩ := scanFrom_skip (0 + fuel) hl hh
    rw [hscan, hrest]
    exact ih _ (by omega)

theorem ScansTo.scan_eq {bytes : List Byte} {samples : List Sample} {rest : List Byte}
    (h : ScansTo bytes samples rest) : samples = scan bytes ∧ rest = scanRest bytes := by
  obtain ⟨hscan, hrest⟩ := h.scanFrom_eq bytes.length le_rfl
  exact ⟨hscan.symm, hrest.symm⟩

/-- The scan goes on from what it has left when more bytes follow. -/
theorem ScansTo.append {bytes more : List Byte} {samples samples' : List Sample} {rest rest' : List Byte}
    (h : ScansTo bytes samples rest) (h' : ScansTo (rest ++ more) samples' rest') :
    ScansTo (bytes ++ more) (samples ++ samples') rest' := by
  induction h with
  | short => exact h'
  | frame f _ ih => rw [List.append_assoc]; exact .frame f (ih h')
  | @skip b bytes _ _ hl hh _ ih =>
    have hpos : 0 < bytes.length := by rw [List.length_cons] at hl; omega
    rw [List.cons_append]
    exact .skip (hl.trans (by simp)) (by rwa [List.getD_append _ _ _ _ hpos]) (ih h')

/-- Every sample takes twenty bytes of the buffer, and none of them is left. -/
theorem ScansTo.length_le {bytes : List Byte} {samples : List Sample} {rest : List Byte}
    (h : ScansTo bytes samples rest) : 20 * samples.length + rest.length ≤ bytes.length := by
  induction h with
  | short => simp
  | frame f _ ih => rw [List.length_append, frameBytes_length, List.length_cons]; omega
  | skip _ _ _ ih => rw [List.length_cons]; omega

theorem scansTo_frameBytes (f : RawFrame) : ScansTo (frameBytes f) [decodeFrame f] [] := by
  have hframe := ScansTo.frame f (.short (bytes := []) (by simp))
  rwa [List.append_nil] at hframe

theorem scansTo_two_frames (f g : RawFrame) :
    ScansTo (frameBytes f ++ frameBytes g) [decodeFrame f, decodeFrame g] [] :=
  .frame f (scansTo_frameBytes g)

/-- A stray byte is passed over by one skip: the byte after it is the frame's first and no second header byte. -/
theorem scansTo_stray_frame (x : Byte) (f : RawFrame) : ScansTo (x :: frameBytes f) [decodeFrame f] [] :=
  .skip (by simp) (fun h => absurd h.2 (by decide : (0x55#8 : Byte) ≠ 0x61#8)) (scansTo_frameBytes f)

/-! ### The block along the scan -/

/-- The acceptance of a byte is one more byte of the scan, with the window as what the scan has left (R53). -/
theorem acceptByte_scansTo {s : State} (b : Byte) (hl : s.window.length < 20) (hn : s.cycleSample = none) :
    ScansTo (s.window ++ [b]) (acceptByte s b).cycleSample.toList (acceptByte s b).window ∧
      (acceptByte s b).window.length < 20 := by
  refine ⟨?_, acceptByte_window_short b hl⟩
  rcases acceptByte_cases s b hl hn with ⟨hshort, hw, hs⟩ | ⟨hfull, hh, hw, hs⟩ | ⟨hfull, hh, hw, hs⟩ <;> rw [hw, hs]
  · exact .short hshort
  · have hframe := scansTo_frameBytes (frameOf (s.window ++ [b]))
    rwa [frameBytes_frameOf hfull ((isHeader_iff _ _).mpr hh)] at hframe
  · obtain ⟨oldest, bytes, hcons⟩ := List.exists_cons_of_length_pos (show 0 < (s.window ++ [b]).length by omega)
    rw [hcons] at hfull hh ⊢
    exact .skip hfull.ge hh (.short (by rw [List.length_cons] at hfull; omega))

/-- What a state owes after the first `j` cycles of a delivery by `driven`: the samples made and the window are the scan
of the bytes that the window held and of those accepted since; after the last byte the window is empty. -/
def ScansPrefix (driven later : List PortIn) (s : State) (j : Nat) : Prop :=
  ∃ u rest, Runs j s u ∧ ScansTo (s.window ++ acceptedBytes (driven.take j)) (samplesIn j s) rest ∧
    (j < driven.length → u.window = rest) ∧
    (j = driven.length → u.window = [] ∧ u.inputs = later ∧ u.resetSeen = true)

theorem scansPrefix_zero {driven later : List PortIn} {s : State} (hd : driven ≠ []) (hl : s.window.length < 20) :
    ScansPrefix driven later s 0 := by
  refine ⟨s, s.window, .zero s, ?_, fun _ => rfl, fun h => absurd (List.length_eq_zero_iff.mp h.symm) hd⟩
  simpa [samplesIn] using ScansTo.short hl

theorem samplesIn_succ {s t : State} (h : step s = .next t) (n : Nat) :
    samplesIn (n + 1) s = t.cycleSample.toList ++ samplesIn n t := by
  simp only [samplesIn, h]

/-- One cycle before others: its byte, if any, is one more byte of the scan. -/
theorem ScansPrefix.cons {p : PortIn} {driven later : List PortIn} {s t : State} {j : Nat} (hstep : step s = .next t)
    (hscan : ScansTo (s.window ++ acceptedBytes [p]) t.cycleSample.toList t.window)
    (h : ScansPrefix driven later t j) : ScansPrefix (p :: driven) later s (j + 1) := by
  obtain ⟨u, rest, hrun, hscan', hbefore, hafter⟩ := h
  refine ⟨u, rest, .succ hstep hrun, ?_, fun hj => hbefore (by simpa using hj), fun hj => hafter (by simpa using hj)⟩
  have hbytes : acceptedBytes ((p :: driven).take (j + 1)) = acceptedBytes [p] ++ acceptedBytes (driven.take j) := by
    simp only [acceptedBytes, List.take_succ_cons, ← List.map_append, ← List.filter_append, List.singleton_append]
  rw [samplesIn_succ hstep, hbytes, ← List.append_assoc]
  exact hscan.append hscan'

theorem Delivery.driven_ne_nil {buffer : List Byte} {driven : List PortIn} (h : Delivery buffer driven) :
    driven ≠ [] := by
  cases h <;> exact List.cons_ne_nil _ _

/-- R65's invariant: what a delivery has brought so far is scanned, whatever short window the delivery finds. -/
theorem Delivery.scansPrefix {buffer : List Byte} {driven later : List PortIn} {s : State} {j : Nat}
    (h : Delivery buffer driven) (hs : s.resetSeen = true) (hl : s.window.length < 20)
    (hi : s.inputs = driven ++ later) (hj : j ≤ driven.length) : ScansPrefix driven later s j := by
  induction j generalizing buffer driven s with
  | zero => exact scansPrefix_zero h.driven_ne_nil hl
  | succ j ih =>
    cases h with
    | @wait p _ ps hr hv h =>
      obtain ⟨t, hstep, hti, hts, htw, htn⟩ := step_of_waiting hs hi hr hv
      refine .cons hstep ?_ (ih h hts (htw ▸ hl) hti (by simpa using hj))
      rw [htw, htn, acceptedBytes_wait [] hv]
      simpa using ScansTo.short hl
    | @byte p _ ps hr hv hlast h =>
      obtain ⟨t, hstep, hti, hts, htw, htn⟩ := step_of_accepting hs hi hr hv
      obtain ⟨hscan, hshort⟩ := acceptByte_scansTo (s := beginCycle s) p.inData hl rfl
      rw [hlast, if_neg Bool.false_ne_true] at htw
      rw [← htw, ← htn] at hscan
      refine .cons hstep ?_ (ih h hts (htw ▸ hshort) hti (by simpa using hj))
      rwa [acceptedBytes_byte [] hv]
    | @last p hr hv hlast =>
      obtain rfl : j = 0 := by simpa using hj
      obtain ⟨t, hstep, hti, hts, htw, htn⟩ := step_of_accepting hs hi hr hv
      obtain ⟨hscan, -⟩ := acceptByte_scansTo (s := beginCycle s) p.inData hl rfl
      rw [hlast, if_pos rfl] at htw
      rw [← htn] at hscan
      refine ⟨t, (acceptByte (beginCycle s) p.inData).window, .succ hstep (.zero t), ?_,
        fun h => absurd h (lt_irrefl _), fun _ => ⟨htw, hti, hts⟩⟩
      rw [samplesIn_succ hstep, List.take_succ_cons, acceptedBytes_byte _ hv]
      simpa [samplesIn] using hscan

theorem Delivery.acceptedBytes_eq {buffer : List Byte} {driven : List PortIn} (h : Delivery buffer driven) :
    acceptedBytes driven = buffer := by
  induction h with
  | wait _ hv _ ih => rw [acceptedBytes_wait _ hv, ih]
  | byte _ hv _ _ ih => rw [acceptedBytes_byte _ hv, ih]
  | last _ hv _ => rw [acceptedBytes_byte _ hv]; rfl

theorem bufferPorts_delivery : ∀ buffer : List Byte, buffer ≠ [] → Delivery buffer (bufferPorts buffer)
  | [], h => absurd rfl h
  | [b], _ => .last (p := lastPorts b) rfl rfl rfl
  | b :: b' :: rest, _ =>
    .byte (p := bytePorts b) rfl rfl rfl (bufferPorts_delivery (b' :: rest) (List.cons_ne_nil _ _))

theorem bufferPorts_length : ∀ buffer : List Byte, (bufferPorts buffer).length = buffer.length
  | [] => rfl
  | [_] => rfl
  | _ :: b' :: rest => congrArg (· + 1) (bufferPorts_length (b' :: rest))

/-- A whole delivery into an empty window: it completes, makes the samples of the scan and leaves the window empty. -/
theorem Delivery.completes {buffer : List Byte} {driven later : List PortIn} {s : State} (h : Delivery buffer driven)
    (hs : s.resetSeen = true) (hw : s.window = []) (hi : s.inputs = driven ++ later) :
    (∃ u, Runs driven.length s u ∧ u.window = [] ∧ u.inputs = later ∧ u.resetSeen = true) ∧
      ∃ rest, ScansTo buffer (samplesIn driven.length s) rest := by
  obtain ⟨u, rest, hrun, hscan, -, hend⟩ := h.scansPrefix hs (by simp [hw]) hi le_rfl
  rw [hw, List.nil_append, List.take_length, h.acceptedBytes_eq] at hscan
  exact ⟨⟨u, hrun, hend rfl⟩, rest, hscan⟩

theorem Delivery.samples_eq {buffer : List Byte} {driven later : List PortIn} {s : State} {samples : List Sample}
    {rest : List Byte} (h : Delivery buffer driven) (hscan : ScansTo buffer samples rest) (hs : s.resetSeen = true)
    (hw : s.window = []) (hi : s.inputs = driven ++ later) : samplesIn driven.length s = samples := by
  obtain ⟨-, rest', hscan'⟩ := h.completes hs hw hi
  rw [hscan.scan_eq.1, hscan'.scan_eq.1]

end Sys2Proof.Machine

open Sys2Proof Sys2Proof.Machine

/-- Settles O47: a simulation, with the window as what the scan has left, by induction on the delivery. -/
theorem blockScansLikeSource : Obligations.BlockScansLikeSource := by
  refine ⟨fun buffer driven later s h hs hw hi => ⟨h.acceptedBytes_eq, fun j hj => ?_⟩, bufferPorts_delivery⟩
  obtain ⟨u, rest, hrun, hscan, hbefore, hafter⟩ := h.scansPrefix hs (by simp [hw]) hi hj
  rw [hw, List.nil_append] at hscan
  obtain ⟨hsamples, rfl⟩ := hscan.scan_eq
  refine ⟨hsamples, u, hrun, hbefore, fun hend => ?_⟩
  obtain ⟨huw, hui, -⟩ := hafter hend
  exact ⟨huw, hui⟩

/-- Settles O48: each part is scanned on its own and is shorter than a frame. -/
theorem splitFrameYieldsNoSample : Obligations.SplitFrameYieldsNoSample := by
  intro front back drivenFront drivenBack later s hfront hback hs hw hlen hi
  have hfrontPos := List.length_pos_of_ne_nil hfront.ne_nil
  have hbackPos := List.length_pos_of_ne_nil hback.ne_nil
  rw [List.append_assoc] at hi
  obtain ⟨⟨m, hrunFront, hmw, hmi, hms⟩, -⟩ := hfront.completes hs hw hi
  obtain ⟨⟨u, hrunBack, huw, -⟩, -⟩ := hback.completes hms hmw hmi
  refine ⟨?_, u, runs_append hrunFront hrunBack, huw⟩
  rw [samplesIn_append _ _ _ _ hrunFront, hfront.samples_eq (.short (by omega)) hs hw hi,
    hback.samples_eq (.short (by omega)) hms hmw hmi, List.append_nil]

/-- Settles O49: each property is one of the scan, carried to every delivery. -/
theorem scanProperties : Obligations.ScanProperties := by
  refine ⟨fun buffer driven later s h hs hw hi => ?_, fun f g driven later s h => h.samples_eq (scansTo_two_frames f g),
    fun x f driven later s h => h.samples_eq (scansTo_stray_frame x f), bufferPorts_length⟩
  obtain ⟨⟨u, hrun, huw, hui, -⟩, rest, hscan⟩ := h.completes hs hw hi
  refine ⟨?_, ⟨u, hrun, huw, hui⟩, ?_, fun hshort => h.samples_eq (.short hshort) hs hw hi⟩
  · rw [← h.acceptedBytes_eq, acceptedBytes, List.length_map]
  · rw [Nat.le_div_iff_mul_le (by norm_num)]
    have := hscan.length_le
    omega

end

section
/-! PROOFS. The numbers of a frame (spec/40_frame_decoder.md R58 to R64, R70): the scalings are exact, the magnitude and
its compensation stay in their ranges, and so does the intensity of a kick (spec/41_kick_detector.md R78). -/

namespace Sys2Proof.Machine

/-! ### Fields (R58) -/

theorem rawValue_bounds (h : Half) : -32768 ≤ rawValue h ∧ rawValue h ≤ 32767 := by
  have hlo := BitVec.le_toInt h
  have hhi := BitVec.toInt_lt (x := h)
  unfold rawValue
  omega

theorem rawValue_natAbs_le (h : Half) : (rawValue h).natAbs ≤ 2 ^ 15 := by
  obtain ⟨hlo, hhi⟩ := rawValue_bounds h
  omega

theorem toNat_fieldOf (w : List Byte) (k : Nat) :
    (fieldOf w k).toNat = (w.getD (2 + 2 * k) 0#8).toNat + 256 * (w.getD (3 + 2 * k) 0#8).toNat := by
  have hlow := (w.getD (2 + 2 * k) 0#8).isLt
  rw [fieldOf, BitVec.toNat_append, ← Nat.shiftLeft_add_eq_or_of_lt hlow, Nat.shiftLeft_eq]
  omega

theorem rawValue_eq (h : Half) : rawValue h = if h.toNat < 32768 then (h.toNat : Int) else (h.toNat : Int) - 65536 := by
  rw [rawValue, BitVec.toInt_eq_toNat_cond]
  split <;> split <;> omega

/-! ### Patterns by sign and magnitude -/

/-- `p` is finite, with the sign `neg` and a magnitude of `u` multiples of `2^-149`. -/
structure Represents (p : Word) (neg : Bool) (u : Nat) : Prop where
  finite : isFinite p = true
  sign : signBit p = neg
  units : magUnits p = u

/-- Some finite pattern has a magnitude of `u` multiples of `2^-149`. -/
def Representable (u : Nat) : Prop := ∃ m < infMag, fieldUnits m = u

theorem Represents.unique {p q : Word} {neg : Bool} {u : Nat} (hp : Represents p neg u) (hq : Represents q neg u) :
    p = q := by
  have hs : signBit p = signBit q := hp.sign.trans hq.sign.symm
  have hm : magField p = magField q := fieldUnits_strictMono.injective (by
    rw [← magUnits_eq, ← magUnits_eq, hp.units, hq.units])
  exact eq_of_orderKey (by rw [orderKey, orderKey, hs, hm]) hs

theorem represents_withSign (neg : Bool) {m : Nat} (hm : m < infMag) :
    Represents (withSign neg m) neg (fieldUnits m) where
  finite := isFinite_withSign neg hm
  sign := signBit_withSign neg m
  units := by rw [magUnits_eq, magField_withSign neg (by unfold infMag at hm; omega)]

theorem Represents.valueOf_eq {p : Word} {neg : Bool} {u : Nat} (h : Represents p neg u) :
    valueOf p = if neg = true then -((u : ℚ) / 2 ^ 149) else (u : ℚ) / 2 ^ 149 := by
  rw [valueOf_eq_sign_mag, h.sign, h.units]

theorem eq_posZero_of_magUnits {p : Word} (hs : signBit p = false) (hu : magUnits p = 0) : p = posZero := by
  rw [eq_withSign_of_isZero (isZero_iff_magUnits.mpr hu), hs]
  rfl

/-- A magnitude of `2^23` multiples or more is that of a normal number. -/
theorem zeroOrNormal_of_magUnits {p : Word} (hf : isFinite p = true) (hs : magUnits p = 0 → signBit p = false)
    (hu : magUnits p = 0 ∨ 2 ^ 23 ≤ magUnits p) : zeroOrNormal p := by
  rcases hu with hu | hu
  · exact .inl (eq_posZero_of_magUnits (hs hu) hu)
  · refine .inr ⟨fun he => ?_, by simpa [isFinite] using hf⟩
    have hfrac := (p.extractLsb' 0 23).isLt
    rw [magUnits, if_pos he, fracField] at hu
    omega

/-! ### Exact operations (R12) -/

/-- A magnitude of at most 24 significant bits below the overflow is that of a finite pattern. -/
theorem representable_mul_pow {n j : Nat} (hn : n < 2 ^ 24) (hj : j ≤ 253) : Representable (n * 2 ^ j) := by
  obtain ⟨hq, hk⟩ := spacing_bounds (n * 2 ^ j)
  have hkj : spacingExp (n * 2 ^ j) ≤ j := by
    rcases Nat.eq_zero_or_pos n with rfl | hpos
    · simp [spacingExp]
    · have hlt : n * 2 ^ j < 2 ^ (24 + j) := by
        rw [pow_add]; exact Nat.mul_lt_mul_of_pos_right hn (by positivity)
      have hlog : Nat.log2 (n * 2 ^ j) < 24 + j := (Nat.log2_lt (by positivity)).mpr hlt
      unfold spacingExp
      omega
  have hdvd : 2 ^ spacingExp (n * 2 ^ j) ∣ n * 2 ^ j := Dvd.dvd.mul_left (Nat.pow_dvd_pow 2 hkj) n
  have hfield := (fieldUnits_packed hq.le hk).trans (Nat.div_mul_cancel hdvd)
  refine ⟨_, fieldUnits_lt_iff.mp ?_, hfield⟩
  rw [hfield, fieldUnits_infMag]
  calc n * 2 ^ j < 2 ^ 24 * 2 ^ j := Nat.mul_lt_mul_of_pos_right hn (by positivity)
    _ ≤ 2 ^ 24 * 2 ^ 253 := Nat.mul_le_mul_left _ (Nat.pow_le_pow_right (by norm_num) hj)
    _ = 2 ^ 277 := by rw [← pow_add]

theorem represents_roundQuot (neg : Bool) {n d u : Nat} (hd : 0 < d) (hn : n = u * d) (hu : Representable u) :
    Represents (withSign neg (roundQuot n d)) neg u := by
  obtain ⟨m, hm, rfl⟩ := hu
  rw [roundQuot_eq, rawQuot_exact hd hn, Nat.min_eq_left hm.le]
  exact represents_withSign neg hm

theorem mul32_represents {a b : Word} {na nb : Bool} {ua ub u : Nat} (ha : Represents a na ua) (hb : Represents b nb ub)
    (h : ua * ub = u * 2 ^ 149) (hu : Representable u) : Represents (mul32 a b) (na != nb) u := by
  rw [mul32_of_finite ha.finite hb.finite, ha.sign, hb.sign, ha.units, hb.units]
  exact represents_roundQuot _ (by positivity) h hu

theorem div32_represents {a b : Word} {na nb : Bool} {ua ub u : Nat} (ha : Represents a na ua) (hb : Represents b nb ub)
    (hpos : 0 < ub) (h : ua * 2 ^ 149 = u * ub) (hu : Representable u) : Represents (div32 a b) (na != nb) u := by
  have hz : isZero b = false := by
    rw [← Bool.not_eq_true, isZero_iff_magUnits, hb.units]
    exact hpos.ne'
  rw [div32_of_finite ha.finite hb.finite hz, ha.sign, hb.sign, ha.units, hb.units]
  exact represents_roundQuot _ hpos h hu

/-! ### The scalings (R60 to R62) -/

/-- A range of at most eight significant bits, as 16, 2000 and 180 are, so that the product with a field is exact. -/
def ShortRange (range : Nat) : Prop := ∃ c i, range = c * 2 ^ i ∧ 0 < c ∧ c < 2 ^ 8 ∧ i ≤ 4

theorem shortRange_acc : ShortRange accRange := ⟨1, 4, by decide⟩

theorem shortRange_gyro : ShortRange gyroRange := ⟨125, 4, by decide⟩

theorem shortRange_ang : ShortRange angRange := ⟨45, 2, by decide⟩

theorem ShortRange.pos {range : Nat} (h : ShortRange range) : 0 < range := by
  obtain ⟨c, i, rfl, hc, -⟩ := h
  positivity

theorem ShortRange.representable {range n j : Nat} (h : ShortRange range) (hn : n ≤ 2 ^ 15) (hj : j ≤ 149) :
    Representable (n * range * 2 ^ j) := by
  obtain ⟨c, i, rfl, -, hc, hi⟩ := h
  have hnc : n * c < 2 ^ 24 := by nlinarith
  have hexp : n * (c * 2 ^ i) * 2 ^ j = n * c * 2 ^ (i + j) := by rw [pow_add]; ring
  rw [hexp]
  exact representable_mul_pow hnc (by omega)

section Scaling

variable {range : Nat} {r : Int}

/-- The field itself as a binary32 value. -/
theorem ofRatio_represents (hr : r.natAbs ≤ 2 ^ 15) :
    Represents (ofRatio (decide (r < 0)) r.natAbs 1) (decide (r < 0)) (r.natAbs * 2 ^ 149) :=
  represents_roundQuot _ one_pos (Nat.mul_one _).symm (representable_mul_pow (by omega) (by norm_num))

theorem scaleRaw_represents (h : ShortRange range) (hr : r.natAbs ≤ 2 ^ 15) :
    Represents (scaleRaw range r) (decide (r < 0)) (r.natAbs * range * 2 ^ 134) :=
  represents_roundQuot _ (by decide) (by rw [fullScale]; ring) (h.representable hr (by norm_num))

theorem valueOf_scaleRaw (h : ShortRange range) (hr : r.natAbs ≤ 2 ^ 15) :
    valueOf (scaleRaw range r) = r * range / 32768 := by
  have habs : ((r.natAbs : ℕ) : ℚ) = |(r : ℚ)| := by rw [Nat.cast_natAbs, Int.cast_abs]
  have hunits : ((r.natAbs * range * 2 ^ 134 : ℕ) : ℚ) / 2 ^ 149 = |(r : ℚ)| * range / 32768 := by
    push_cast
    rw [habs]
    ring
  rw [(scaleRaw_represents h hr).valueOf_eq, hunits]
  by_cases hneg : r < 0
  · have : (r : ℚ) < 0 := by exact_mod_cast hneg
    rw [if_pos (by simpa using hneg), abs_of_neg this]
    ring
  · have : (0 : ℚ) ≤ r := by exact_mod_cast not_lt.mp hneg
    rw [if_neg (by simpa using hneg), abs_of_nonneg this]

/-- Multiplying by the range and then dividing by 32768 rounds nothing. -/
theorem scaleRaw_eq_div_mul {rangeWord : Word} (h : ShortRange range) (hr : r.natAbs ≤ 2 ^ 15)
    (hw : Represents rangeWord false (range * 2 ^ 149)) :
    scaleRaw range r = div32 (mul32 (ofRatio (decide (r < 0)) r.natAbs 1) rangeWord) 0x47000000#32 := by
  have hfull : Represents 0x47000000#32 false (2 ^ 15 * 2 ^ 149) := ⟨by decide, by decide, by decide +kernel⟩
  have hprod := mul32_represents (u := r.natAbs * range * 2 ^ 149) (ofRatio_represents hr) hw (by ring)
    (h.representable hr le_rfl)
  have hquot := div32_represents (u := r.natAbs * range * 2 ^ 134) hprod hfull (by positivity) (by ring)
    (h.representable hr (by norm_num))
  rw [Bool.bne_false, Bool.bne_false] at hquot
  exact (scaleRaw_represents h hr).unique hquot

/-- Multiplying by the quotient of the range and 32768 rounds nothing either. -/
theorem scaleRaw_eq_mul {quotWord : Word} (h : ShortRange range) (hr : r.natAbs ≤ 2 ^ 15)
    (hw : Represents quotWord false (range * 2 ^ 134)) :
    scaleRaw range r = mul32 (ofRatio (decide (r < 0)) r.natAbs 1) quotWord := by
  have hprod := mul32_represents (u := r.natAbs * range * 2 ^ 134) (ofRatio_represents hr) hw (by ring)
    (h.representable hr (by norm_num))
  rw [Bool.bne_false] at hprod
  exact (scaleRaw_represents h hr).unique hprod

theorem scaleRaw_zero (range : Nat) : scaleRaw range 0 = 0#32 := by
  have hexact : rawQuot (0 * range * 2 ^ 149) fullScale = 0 := rawQuot_exact (by decide) (by simp [fieldUnits_zero])
  rw [scaleRaw, ofRatio, roundQuot_eq, Int.natAbs_zero, hexact]
  rfl

/-- A scaling is exact, and so is every evaluation order of it. -/
theorem scaleRaw_exact {rangeWord quotWord : Word} {value : ℚ} (h : ShortRange range) (hvalue : (range : ℚ) = value)
    (hw : Represents rangeWord false (range * 2 ^ 149)) (hq : Represents quotWord false (range * 2 ^ 134))
    (hr : r.natAbs ≤ 2 ^ 15) :
    isFinite (scaleRaw range r) = true ∧ valueOf (scaleRaw range r) = r * value / 32768 ∧
    scaleRaw range r = div32 (mul32 (ofRatio (decide (r < 0)) r.natAbs 1) rangeWord) 0x47000000#32 ∧
    scaleRaw range r = mul32 (ofRatio (decide (r < 0)) r.natAbs 1) quotWord :=
  ⟨(scaleRaw_represents h hr).finite, hvalue ▸ valueOf_scaleRaw h hr, scaleRaw_eq_div_mul h hr hw,
    scaleRaw_eq_mul h hr hq⟩

/-- The smallest scaled field, one step, is far above the subnormal numbers. -/
theorem scaleRaw_zeroOrNormal (h : ShortRange range) (hr : r.natAbs ≤ 2 ^ 15) : zeroOrNormal (scaleRaw range r) := by
  have hrep := scaleRaw_represents h hr
  refine zeroOrNormal_of_magUnits hrep.finite (fun hz => ?_) ?_
  · have hr0 : r = 0 := by simpa [hrep.units, h.pos.ne'] using hz
    rw [hrep.sign, hr0]
    rfl
  · rw [hrep.units]
    rcases Nat.eq_zero_or_pos (r.natAbs * range) with hz | hpos
    · exact .inl (by rw [hz, Nat.zero_mul])
    · exact .inr (by omega)

end Scaling

/-! ### The magnitude (R63) -/

/-- `p` is +0.0 or a positive pattern whose magnitude field is at most `bound`. -/
structure NonnegUpTo (p : Word) (bound : Nat) : Prop where
  sign : signBit p = false
  field : magField p ≤ bound

theorem NonnegUpTo.finite {p : Word} {bound : Nat} (h : NonnegUpTo p bound) (hb : bound < infMag) : isFinite p = true :=
  (isFinite_iff p).mpr (h.field.trans_lt hb)

theorem NonnegUpTo.units_eq {p : Word} {bound : Nat} (h : NonnegUpTo p bound) : units p = magUnits p := by
  simp [units, h.sign]

theorem NonnegUpTo.magUnits_le {p : Word} {bound : Nat} (h : NonnegUpTo p bound) : magUnits p ≤ fieldUnits bound := by
  rw [magUnits_eq]
  exact fieldUnits_strictMono.monotone h.field

theorem nonnegUpTo_withSign {m bound : Nat} (hm : m ≤ bound) (hb : bound ≤ infMag) :
    NonnegUpTo (withSign false m) bound where
  sign := signBit_withSign false m
  field := by rwa [magField_withSign false (by unfold infMag at hb; omega)]

theorem nonnegUpTo_square {p : Word} {u : Nat} (hf : isFinite p = true) (hu : magUnits p ≤ u) :
    NonnegUpTo (mul32 p p) (roundQuot (u * u) (2 ^ 149)) := by
  rw [mul32_of_finite hf hf, bne_self_eq_false]
  refine nonnegUpTo_withSign (roundQuot_mono (by positivity) (by positivity) ?_) (roundQuot_le _ _)
  exact Nat.mul_le_mul_right _ (Nat.mul_le_mul hu hu)

theorem nonnegUpTo_add {p q : Word} {bp bq : Nat} (hp : NonnegUpTo p bp) (hq : NonnegUpTo q bq) (hbp : bp < infMag)
    (hbq : bq < infMag) : NonnegUpTo (add32 p q) (roundQuot (fieldUnits bp + fieldUnits bq) 1) := by
  rw [add32_of_finite (hp.finite hbp) (hq.finite hbq), hp.units_eq, hq.units_eq, hp.sign, hq.sign]
  split
  · exact nonnegUpTo_withSign (Nat.zero_le _) (roundQuot_le _ _)
  · rw [decide_eq_false (by omega)]
    refine nonnegUpTo_withSign (roundQuot_mono one_pos one_pos ?_) (roundQuot_le _ _)
    have := hp.magUnits_le
    have := hq.magUnits_le
    omega

theorem nonnegUpTo_sqrt {p : Word} {bound : Nat} (hp : NonnegUpTo p bound) (hb : bound < infMag) :
    NonnegUpTo (sqrt32 p) (roundSqrt (fieldUnits bound * 2 ^ 149)) := by
  have hf := hp.finite hb
  cases hz : isZero p
  · rw [sqrt32_of_pos hf hz hp.sign]
    exact nonnegUpTo_withSign (roundSqrt_mono (Nat.mul_le_mul_right _ hp.magUnits_le)) (roundSqrt_le _)
  · rw [sqrt32_of_isZero hf hz]
    exact ⟨hp.sign, by rw [isZero_iff_magField.mp hz]; exact Nat.zero_le _⟩

/-- The root of even the smallest subnormal is normal. -/
theorem sqrt32_zeroOrNormal {p : Word} (hf : isFinite p = true) (hs : signBit p = false)
    (hfin : isFinite (sqrt32 p) = true) : zeroOrNormal (sqrt32 p) := by
  cases hz : isZero p
  · have hpos := magUnits_pos hz
    have hlo : 2 ^ 23 ≤ roundSqrt (magUnits p * 2 ^ 149) :=
      calc 2 ^ 23 ≤ roundSqrt (2 ^ 149) := by decide +kernel
        _ ≤ _ := roundSqrt_mono (by omega)
    have hunits : 2 ^ 23 ≤ magUnits (sqrt32 p) := by
      rw [sqrt32_of_pos hf hz hs, magUnits_eq, magField_withSign _ ((roundSqrt_le _).trans_lt (by decide))]
      exact fieldUnits_strictMono.monotone hlo
    exact zeroOrNormal_of_magUnits hfin (fun h => absurd hunits (by rw [h]; decide)) (.inr hunits)
  · rw [sqrt32_of_isZero hf hz]
    exact .inl (eq_posZero_of_magUnits hs (isZero_iff_magUnits.mp hz))

/-- The largest fields of a square, of the two sums and of the magnitude: those of 256, 512, 768 and the root of 768. -/
theorem magnitude_bounds :
    roundQuot (2 ^ 153 * 2 ^ 153) (2 ^ 149) = 0x43800000 ∧
    roundQuot (fieldUnits 0x43800000 + fieldUnits 0x43800000) 1 = 0x44000000 ∧
    roundQuot (fieldUnits 0x44000000 + fieldUnits 0x43800000) 1 = 0x44400000 ∧
    roundSqrt (fieldUnits 0x44400000 * 2 ^ 149) = 0x41DDB3D7 := by decide +kernel

/-- The sum of the squares of three accelerations of at most 16 g is at most 768. -/
theorem nonnegUpTo_sumOfSquares {x y z : Word} (hx : isFinite x = true ∧ magUnits x ≤ 2 ^ 153)
    (hy : isFinite y = true ∧ magUnits y ≤ 2 ^ 153) (hz : isFinite z = true ∧ magUnits z ≤ 2 ^ 153) :
    NonnegUpTo (add32 (add32 (mul32 x x) (mul32 y y)) (mul32 z z)) 0x44400000 := by
  obtain ⟨hsquare, hsum, htotal, -⟩ := magnitude_bounds
  have square {p : Word} (hp : isFinite p = true ∧ magUnits p ≤ 2 ^ 153) : NonnegUpTo (mul32 p p) 0x43800000 :=
    hsquare ▸ nonnegUpTo_square hp.1 hp.2
  have hxy := hsum ▸ nonnegUpTo_add (square hx) (square hy) (by decide) (by decide)
  exact htotal ▸ nonnegUpTo_add hxy (square hz) (by decide) (by decide)

/-- The magnitude of three accelerations of at most 16 g (R63). -/
theorem magnitude_range {x y z : Word} (hx : isFinite x = true ∧ magUnits x ≤ 2 ^ 153)
    (hy : isFinite y = true ∧ magUnits y ≤ 2 ^ 153) (hz : isFinite z = true ∧ magUnits z ≤ 2 ^ 153) :
    NonnegUpTo (magnitude x y z) 0x41DDB3D7 ∧ zeroOrNormal (magnitude x y z) := by
  have hsum := nonnegUpTo_sumOfSquares hx hy hz
  obtain ⟨-, -, -, hroot⟩ := magnitude_bounds
  have hmag : NonnegUpTo (magnitude x y z) 0x41DDB3D7 := hroot ▸ nonnegUpTo_sqrt hsum (by decide)
  exact ⟨hmag, sqrt32_zeroOrNormal (hsum.finite (by decide)) hsum.sign (hmag.finite (by decide))⟩

/-! ### The compensation (R64) -/

theorem isNaN_withSign (neg : Bool) {m : Nat} (hm : m ≤ infMag) : isNaN (withSign neg m) = false := by
  unfold infMag at hm
  rw [isNaN, expField_eq, fracField_eq, magField_withSign neg (by omega), Bool.and_eq_false_iff]
  by_cases he : m / 2 ^ 23 = 255
  · exact .inr (by rw [bne_eq_false_iff_eq]; omega)
  · exact .inl (by simpa using he)

theorem gt32_withSign_posZero (neg : Bool) {m : Nat} (hm : m ≤ infMag) :
    gt32 (withSign neg m) posZero = true ↔ neg = false ∧ 0 < m := by
  have hkey : orderKey posZero = 0 := by decide
  have hnan : isNaN posZero = false := by decide
  rw [gt32_iff, isNaN_withSign neg hm, hnan, hkey, orderKey, signBit_withSign, magField_withSign neg (by
    unfold infMag at hm; omega)]
  cases neg <;> simp

theorem sub32_of_finite {a b : Word} (ha : isFinite a = true) (hb : isFinite b = true) :
    sub32 a b = if units a - units b = 0 then withSign (signBit a && !signBit b) 0
      else withSign (decide (units a - units b < 0)) (roundQuot (units a - units b).natAbs 1) := by
  rw [sub32_eq_add32 ha hb, add32_of_finite ha (isFinite_neg32 hb), units_neg32, (neg32_fields b).1, ← sub_eq_add_neg]

theorem baseline_isFinite : isFinite baseline = true := by decide

/-- At or below the baseline the rounded difference is a zero or negative. -/
theorem compensate_of_le {mag : Word} (hf : isFinite mag = true) (h : valueOf mag ≤ valueOf baseline) :
    compensate mag = posZero := by
  have hle : units mag ≤ units baseline := not_lt.mp fun hlt => h.not_gt (valueOf_lt.mpr hlt)
  refine if_neg ?_
  rw [sub32_of_finite hf baseline_isFinite]
  split
  · rw [gt32_withSign_posZero _ (Nat.zero_le _)]
    exact fun hpos => lt_irrefl 0 hpos.2
  · rw [gt32_withSign_posZero _ (roundQuot_le _ _), decide_eq_false_iff_not]
    omega

/-- A positive magnitude rounds to a positive field. -/
theorem roundQuot_one_pos {n : Nat} (h : 0 < n) : 0 < roundQuot n 1 := by
  have hmono : roundQuot 1 1 ≤ roundQuot n 1 := roundQuot_mono one_pos one_pos (by omega)
  have hone : roundQuot 1 1 = 1 := by decide
  omega

/-- Above the baseline the rounded difference is positive. -/
theorem compensate_of_gt {mag : Word} (hf : isFinite mag = true) (h : valueOf baseline < valueOf mag) :
    0 < roundQuot (units mag - units baseline).natAbs 1 ∧
    sub32 mag baseline = withSign false (roundQuot (units mag - units baseline).natAbs 1) ∧
    compensate mag = sub32 mag baseline := by
  have hlt := valueOf_lt.mp h
  have hpos := roundQuot_one_pos (n := (units mag - units baseline).natAbs) (by omega)
  have hsub : sub32 mag baseline = withSign false (roundQuot (units mag - units baseline).natAbs 1) := by
    rw [sub32_of_finite hf baseline_isFinite, if_neg (by omega), decide_eq_false (by omega)]
  refine ⟨hpos, hsub, if_pos ?_⟩
  rw [hsub, gt32_withSign_posZero _ (roundQuot_le _ _)]
  exact ⟨rfl, hpos⟩

theorem valueOf_withSign_pos {m : Nat} (hm : 0 < m) (hlt : m ≤ infMag) : 0 < valueOf (withSign false m) := by
  have hpos : fieldUnits 0 < fieldUnits m := fieldUnits_strictMono hm
  rw [fieldUnits_zero] at hpos
  rw [valueOf_eq_sign_mag, signBit_withSign, magUnits_eq, magField_withSign _ (by unfold infMag at hlt; omega),
    if_neg Bool.false_ne_true]
  positivity

/-- The compensated magnitude of a magnitude in its range: +0.0, or at least one step of the baseline's
binade (R70). -/
theorem compensate_range {mag : Word} (h : NonnegUpTo mag 0x41DDB3D7) :
    compensate mag = posZero ∨ (0x34800000 ≤ (compensate mag).toNat ∧ (compensate mag).toNat ≤ 0x41CCFB85) := by
  have hf := h.finite (by decide)
  rcases le_or_gt (valueOf mag) (valueOf baseline) with hle | hgt
  · exact .inl (compensate_of_le hf hle)
  · right
    obtain ⟨-, hsub, hcomp⟩ := compensate_of_gt hf hgt
    have hbase : units baseline = fieldUnits 0x4005C28F := by decide +kernel
    have hmag : units mag = fieldUnits (magField mag) := by rw [h.units_eq, magUnits_eq]
    have hlt : fieldUnits 0x4005C28F < fieldUnits (magField mag) := by
      have := valueOf_lt.mp hgt
      omega
    have hlo : fieldUnits 0x4005C290 ≤ fieldUnits (magField mag) :=
      fieldUnits_strictMono.monotone (fieldUnits_lt_iff.mp hlt)
    have hhi : fieldUnits (magField mag) ≤ fieldUnits 0x41DDB3D7 := fieldUnits_strictMono.monotone h.field
    have hdiff : (units mag - units baseline).natAbs = fieldUnits (magField mag) - fieldUnits 0x4005C28F := by omega
    have hmin : roundQuot (fieldUnits 0x4005C290 - fieldUnits 0x4005C28F) 1 = 0x34800000 := by decide +kernel
    have hmax : roundQuot (fieldUnits 0x41DDB3D7 - fieldUnits 0x4005C28F) 1 = 0x41CCFB85 := by decide +kernel
    rw [hcomp, hsub, hdiff, withSign_toNat _ ((roundQuot_le _ _).trans_lt (by decide)), Bool.toNat_false, Nat.zero_mul,
      Nat.zero_add, ← hmin, ← hmax]
    exact ⟨roundQuot_mono one_pos one_pos (by omega), roundQuot_mono one_pos one_pos (by omega)⟩

/-! ### The sample of a frame (R57, R70) -/

theorem scaleAccel_upTo (h : Half) :
    isFinite (scaleAccel (rawValue h)) = true ∧ magUnits (scaleAccel (rawValue h)) ≤ 2 ^ 153 := by
  have hr := rawValue_natAbs_le h
  have hrep := scaleRaw_represents shortRange_acc hr
  refine ⟨hrep.finite, hrep.units.trans_le ?_⟩
  calc (rawValue h).natAbs * accRange * 2 ^ 134 ≤ 2 ^ 15 * accRange * 2 ^ 134 := by gcongr
    _ = 2 ^ 153 := by decide +kernel

theorem decodeFrame_mag_range (f : RawFrame) :
    NonnegUpTo (decodeFrame f).mag 0x41DDB3D7 ∧ zeroOrNormal (decodeFrame f).mag :=
  magnitude_range (scaleAccel_upTo f.ax) (scaleAccel_upTo f.ay) (scaleAccel_upTo f.az)

theorem decodeFrame_comp_range (f : RawFrame) :
    (decodeFrame f).comp = posZero ∨
      (0x34800000 ≤ (decodeFrame f).comp.toNat ∧ (decodeFrame f).comp.toNat ≤ 0x41CCFB85) :=
  compensate_range (decodeFrame_mag_range f).1

theorem decodeFrame_regular (f : RawFrame) : regularSample (decodeFrame f) := by
  have acc := fun h => scaleRaw_zeroOrNormal shortRange_acc (rawValue_natAbs_le h)
  have gyro := fun h => scaleRaw_zeroOrNormal shortRange_gyro (rawValue_natAbs_le h)
  have ang := fun h => scaleRaw_zeroOrNormal shortRange_ang (rawValue_natAbs_le h)
  exact ⟨acc f.ax, acc f.ay, acc f.az, gyro f.wx, gyro f.wy, gyro f.wz, ang f.roll, ang f.pitch, ang f.yaw,
    (decodeFrame_mag_range f).2, decodeFrame_comp_range f⟩

/-- No frame gives the detector a NaN or an infinity (R82). -/
theorem decodeFrame_comp_isFinite (f : RawFrame) : isFinite (decodeFrame f).comp = true := by
  rw [isFinite_iff, magField_eq, infMag]
  rcases decodeFrame_comp_range f with h | ⟨-, h⟩
  · rw [h]; decide
  · omega

/-! ### The intensity of a kick (R72, R78) -/

/-- Every magnitude is a number of steps of its binade. -/
theorem exists_steps (m : Nat) : ∃ k q, m = k * 2 ^ 23 + q ∧ q < 2 ^ 24 ∧ (k = 0 ∨ 2 ^ 23 ≤ q) := by
  rcases Nat.eq_zero_or_pos (m / 2 ^ 23) with h | h
  · exact ⟨0, m, by omega, by omega, .inl rfl⟩
  · exact ⟨m / 2 ^ 23 - 1, m % 2 ^ 23 + 2 ^ 23, by omega, by omega, .inr (by omega)⟩

/-- The next field is more than `2^-24` of a magnitude above it: 24 significant bits. -/
theorem fieldUnits_step (m : Nat) : (2 ^ 24 + 1) * fieldUnits m < 2 ^ 24 * fieldUnits (m + 1) := by
  obtain ⟨k, q, rfl, hq, hk⟩ := exists_steps m
  rw [Nat.add_assoc, fieldUnits_packed hq.le hk, fieldUnits_packed hq (hk.imp_right Nat.le_succ_of_le), ← Nat.mul_assoc,
    ← Nat.mul_assoc]
  exact Nat.mul_lt_mul_of_pos_right (by omega) (by positivity)

/-- Past the middle between two fields a number is not rounded to the lower one. -/
theorem NearestField.lt_of_past_middle {x : ℝ} {m a : Nat} (h : NearestField x m)
    (hx : (fieldUnits a + fieldUnits (a + 1) : ℝ) < 2 * x) : a < m := by
  by_contra hle
  have hma : (fieldUnits m : ℝ) ≤ fieldUnits a := by exact_mod_cast fieldUnits_strictMono.monotone (not_lt.mp hle)
  have hstep : (fieldUnits a : ℝ) < fieldUnits (a + 1) := by exact_mod_cast fieldUnits_lt_succ a
  obtain ⟨hnear, -⟩ := h (a + 1)
  rw [abs_of_neg (by linarith)] at hnear
  rcases abs_cases ((fieldUnits (a + 1) : ℝ) - x) with ⟨he, _⟩ | ⟨he, _⟩ <;> rw [he] at hnear <;> linarith

theorem orderKey_pos {p : Word} (h : 0 < orderKey p) : signBit p = false ∧ orderKey p = magField p := by
  unfold orderKey at *
  split at h
  · omega
  · simp_all

/-- A value above a legal `upper` makes `upper` finite and both positive. -/
theorem fields_of_trigger {v upper : Word} (hv : isFinite v = true) (hu : legalUpper upper) (hgt : gt32 v upper = true) :
    isFinite upper = true ∧ signBit v = false ∧ signBit upper = false ∧ 0 < magField upper ∧
      magField upper < magField v := by
  obtain ⟨-, -, hfloor⟩ := ge32_iff.mp hu
  obtain ⟨-, -, habove⟩ := gt32_iff.mp hgt
  have hpos : 0 < orderKey upperFloor := by decide
  obtain ⟨hus, huk⟩ := orderKey_pos (hpos.trans_le hfloor)
  obtain ⟨hvs, hvk⟩ := orderKey_pos ((hpos.trans_le hfloor).trans habove)
  have hvf := (isFinite_iff v).mp hv
  exact ⟨(isFinite_iff upper).mpr (by omega), hvs, hus, by omega, by omega⟩

/-- The quotient of two different positive values, the larger by the smaller, rounds to more than 1. -/
theorem div32_above_one {v upper : Word} (hv : isFinite v = true) (hu : legalUpper upper) (hgt : gt32 v upper = true) :
    ∃ m, div32 v upper = withSign false m ∧ 0x3F800001 ≤ m ∧ m < 2 ^ 31 := by
  obtain ⟨huf, hvs, hus, hpos, hlt⟩ := fields_of_trigger hv hu hgt
  have hz : isZero upper = false := by
    rw [← Bool.not_eq_true, isZero_iff_magField]; exact hpos.ne'
  have hunits := magUnits_pos hz
  have hratio : (2 ^ 24 + 1) * magUnits upper < 2 ^ 24 * magUnits v := by
    rw [magUnits_eq, magUnits_eq]
    exact (fieldUnits_step _).trans_le (Nat.mul_le_mul_left _ (fieldUnits_strictMono.monotone hlt))
  have hone : fieldUnits 0x3F800000 = 2 ^ 149 ∧ fieldUnits (0x3F800000 + 1) = 2 ^ 149 + 2 ^ 126 := by decide +kernel
  have hraw : 0x3F800000 < rawQuot (magUnits v * 2 ^ 149) (magUnits upper) := by
    refine (rawQuot_nearest _ hunits).lt_of_past_middle ?_
    rw [hone.1, hone.2, ← mul_div_assoc, lt_div_iff₀ (by exact_mod_cast hunits)]
    have hreal : ((2 ^ 24 + 1) * magUnits upper : ℝ) < 2 ^ 24 * magUnits v := by exact_mod_cast hratio
    push_cast
    nlinarith
  refine ⟨_, by rw [div32_of_finite hv huf hz, hvs, hus, bne_self_eq_false], ?_, (roundQuot_le _ _).trans_lt (by decide)⟩
  rw [roundQuot_eq, infMag]
  omega

/-- R78, for the kick of an evaluation with a legal `upper`. -/
theorem intensity_inRange {v upper : Word} (hv : isFinite v = true) (hu : legalUpper upper) (hgt : gt32 v upper = true) :
    kickInRange (intensity v upper) := by
  obtain ⟨m, hdiv, hone, hlt⟩ := div32_above_one hv hu hgt
  unfold intensity
  split
  · next hcap =>
    obtain ⟨-, -, hbelow⟩ := lt32_iff.mp hcap
    have hkey : orderKey (withSign false m) = m := by
      rw [orderKey, signBit_withSign, magField_withSign false hlt, if_neg Bool.false_ne_true]
    have hcapKey : orderKey intensityCap = 0x40000000 := by decide
    rw [hdiv, hkey, hcapKey] at hbelow
    rw [hdiv, kickInRange, withSign_toNat false hlt, Bool.toNat_false]
    omega
  · exact ⟨by decide, by decide⟩

theorem kickOf_inRange {armed : Bool} {v upper : Word} (hv : isFinite v = true) (hu : legalUpper upper) :
    ∀ i ∈ kickOf armed v upper, kickInRange i := by
  intro i hi
  unfold kickOf at hi
  split at hi
  · next htrig =>
    obtain ⟨-, hgt⟩ := (Bool.and_eq_true _ _).mp htrig
    cases hi
    exact intensity_inRange hv hu hgt
  · cases hi

/-! ### The ranges after a step -/

variable {s t : State}

theorem RangesKept.pipe_effects (h : RangesKept s) : ∀ e ∈ s.pipe, EffectsInRange e := fun e he =>
  ⟨h.pipeSample e he, h.pipeKick e he⟩

/-- What the byte group makes of a state without events is in range (R70, R78). -/
theorem byteStage_effects_inRange (p : PortIn) (hs : s.cycleSample = none) (hk : s.cycleKick = none)
    (hu : legalUpper s.upper) :
    (∀ x ∈ (byteStage p s).cycleSample, regularSample x) ∧ ∀ i ∈ (byteStage p s).cycleKick, kickInRange i := by
  rcases byteStage_cases p s hs hk with ⟨hsample, hkick, -⟩ | ⟨f, hsample, hkick, -⟩ <;> rw [hsample, hkick]
  · exact ⟨nofun, nofun⟩
  · refine ⟨fun x hx => ?_, kickOf_inRange (decodeFrame_comp_isFinite f) hu⟩
    cases hx
    exact decodeFrame_regular f

theorem step_rangesKept (hlegal : (nextPorts s).rst = true ∨ legalUpper s.upper) (h : RangesKept s)
    (hstep : step s = .next t) : RangesKept t := by
  obtain ⟨-, rfl⟩ := step_iff.mp hstep
  cases hrst : (nextPorts s).rst
  case true =>
    rw [cycleBody_rst hrst]
    exact endCycle_hardReset_rangesKept _ _
  case false =>
    obtain ⟨hsample, hkick⟩ := byteStage_effects_inRange (s := beginCycle s) (nextPorts s) rfl rfl (by
      simpa [hrst] using hlegal)
    rw [cycleBody_no_rst hrst]
    refine endCycle_rangesKept _ ⟨by simpa using hsample, by simpa using hkick⟩ ?_
    simpa using h.pipe_effects

end Sys2Proof.Machine

open Sys2Proof Sys2Proof.Machine

/-- Settles O55: a cycle makes at most the sample of one frame and the kick of its evaluation, both in range; the clock
edge makes up no others. -/
theorem stepKeepsRanges : Obligations.StepKeepsRanges :=
  fun _ _ _ hlegal hranges hstep => step_rangesKept (.inr hlegal.upperLegal) hranges hstep

/-- Settles O23: the high byte counts 256, and a field from 32768 on stands for itself minus 65536. -/
theorem fieldsAreLittleEndianSigned : Obligations.FieldsAreLittleEndianSigned := by
  intro w k _
  refine ⟨?_, rawValue_bounds _⟩
  rw [rawValue_eq, toNat_fieldOf]
  push_cast
  rfl

/-- Settles O28: no operation of any evaluation order needs more than 24 significant bits. -/
theorem scalingsAreExact : Obligations.ScalingsAreExact := by
  intro h
  have hr := rawValue_natAbs_le h
  refine ⟨scaleRaw_exact shortRange_acc (by norm_num [accRange]) ⟨rfl, rfl, by decide +kernel⟩
      ⟨rfl, rfl, by decide +kernel⟩ hr,
    scaleRaw_exact shortRange_gyro (by norm_num [gyroRange]) ⟨rfl, rfl, by decide +kernel⟩
      ⟨rfl, rfl, by decide +kernel⟩ hr,
    scaleRaw_exact shortRange_ang (by norm_num [angRange]) ⟨rfl, rfl, by decide +kernel⟩
      ⟨rfl, rfl, by decide +kernel⟩ hr,
    fun h0 => ?_⟩
  rw [h0]
  exact ⟨scaleRaw_zero _, scaleRaw_zero _, scaleRaw_zero _⟩

/-- Settles O30: the sign of the rounded difference is that of the exact one. -/
theorem compensationIsNeverNegative : Obligations.CompensationIsNeverNegative := by
  refine fun mag hf => ⟨compensate_of_le hf, fun hgt => ?_⟩
  obtain ⟨hpos, hsub, hcomp⟩ := compensate_of_gt hf hgt
  refine ⟨hcomp, ?_⟩
  rw [hcomp, hsub]
  exact valueOf_withSign_pos hpos (roundQuot_le _ _)

/-- Settles O31: rounding is monotone, so the bounds of the accelerations bound every later result. -/
theorem sampleFieldsAreRegular : Obligations.SampleFieldsAreRegular :=
  ⟨decodeFrame_regular, by decide +kernel⟩

/-- Settles O29: the sequence is the definition's, and the rule's example is evaluated. -/
theorem magnitudeRoundsLeftToRight : Obligations.MagnitudeRoundsLeftToRight :=
  ⟨fun _ _ _ => rfl, by decide +kernel, by decide +kernel, by decide +kernel, by decide +kernel⟩

end

section
/-! PROOFS. The operations of the frame decoder (spec/40_frame_decoder.md R53 to R57): what each writes and what it
leaves alone. -/

namespace Sys2Proof.Machine

variable {s : State}

/-! ### Each operation after a RESET, as its state transformer -/

theorem exec_byte_of_seen (b : Byte) (hs : s.resetSeen = true) :
    exec (.byte b) s = .next (windowTest (appendByte s b)) :=
  (exec_byte b s).trans (afterReset_of_seen hs)

theorem exec_byteLast_of_seen (b : Byte) (hs : s.resetSeen = true) :
    exec (.byteLast b) s = .next (clearWindow (windowTest (appendByte s b))) := afterReset_of_seen hs

theorem exec_frameDecode_of_seen (f : RawFrame) (hs : s.resetSeen = true) :
    exec (.frameDecode f) s = .next (decodeAndEvaluate s f) := afterReset_of_seen hs

theorem exec_windowSkip_of_seen (w0 w1 : Byte) (hs : s.resetSeen = true) :
    exec (.windowSkip w0 w1) s = .next (dropOldest s) := afterReset_of_seen hs

/-! ### The evaluation inside a frame decode (R71) -/

theorem armedAfter_eq (armed : Bool) (v upper lower : Word) :
    armedAfter armed v upper lower =
      if armed = true ∧ gt32 v upper = true then false
      else if armed = false ∧ lt32 v lower = true then true
      else armed := by
  simp only [armedAfter, triggers, rearms, Bool.and_eq_true, Bool.not_eq_true']

theorem kickOf_or_eq (armed : Bool) (v upper : Word) (kick : Option Word) :
    (kickOf armed v upper).or kick =
      if armed = true ∧ gt32 v upper = true then some (intensity v upper) else kick := by
  simp only [kickOf, triggers, Bool.and_eq_true]
  split <;> rfl

/-- Two frames with the same accelerations have the same compensated magnitude (R57). -/
theorem decodeFrame_comp_congr {f g : RawFrame} (hx : f.ax = g.ax) (hy : f.ay = g.ay) (hz : f.az = g.az) :
    (decodeFrame f).comp = (decodeFrame g).comp := by
  simp only [decodeFrame, hx, hy, hz]

/-- A frame decode reads the other fields only into its sample (R57). -/
theorem decodeAndEvaluate_congr {f g : RawFrame} (h : (decodeFrame f).comp = (decodeFrame g).comp) (s : State) :
    { decodeAndEvaluate s f with cycleSample := none } = { decodeAndEvaluate s g with cycleSample := none } := by
  simp [h]

end Sys2Proof.Machine

open Sys2Proof Sys2Proof.Machine

/-- Settles O4: the three cases of the window test on the window that the byte extends. -/
theorem byteAppendsThenTests : Obligations.ByteAppendsThenTests := by
  intro b s hs
  rw [exec_byte_of_seen b hs]
  refine ⟨fun hl => ?_, fun hl hh => ?_, fun hl hh => ?_⟩
  · rw [windowTest_notFull (s := appendByte s b) hl]
    rfl
  · rw [windowTest_frame (s := appendByte s b) hl ((isHeader_iff _ _).mpr hh)]
    rfl
  · rw [windowTest_skip (s := appendByte s b) hl (isHeader_eq_false hh)]
    rfl

/-- Settles O5: both perform the same window test. -/
theorem byteLastEmptiesWindow : Obligations.ByteLastEmptiesWindow :=
  fun b _ hs => ⟨_, exec_byte_of_seen b hs, exec_byteLast_of_seen b hs⟩

/-- Settles O6: the frame's evaluation, branch by branch. -/
theorem frameDecodeEmitsAndEvaluates : Obligations.FrameDecodeEmitsAndEvaluates := by
  intro f s hs
  rw [exec_frameDecode_of_seen f hs, ← armedAfter_eq, ← kickOf_or_eq]
  rfl

/-- Settles O7: a compensated magnitude is finite, so PROCESS evaluates it. -/
theorem frameDecodeIssuesProcess : Obligations.FrameDecodeIssuesProcess := by
  intro f s hs
  refine ⟨evaluate (emitSample s (decodeFrame f)) (decodeFrame f).comp, ?_, exec_frameDecode_of_seen f hs⟩
  rw [exec_process (decodeFrame_comp_isFinite f)]
  exact afterReset_of_seen hs

/-- Settles O8: the operand bytes select the operation and are not read by it. -/
theorem windowSkipDropsOldest : Obligations.WindowSkipDropsOldest := by
  intro w0 w1 s hs
  rw [exec_windowSkip_of_seen w0 w1 hs, List.drop_one]
  rfl

/-- Settles O32: the detector is given the compensated magnitude, which the accelerations alone determine. -/
theorem onlyAccelerationReachesDetector : Obligations.OnlyAccelerationReachesDetector :=
  fun f g s hx hy hz hs => ⟨_, _, exec_frameDecode_of_seen f hs, exec_frameDecode_of_seen g hs,
    decodeAndEvaluate_congr (decodeFrame_comp_congr hx hy hz) s⟩

/-- Settles O58: each field is the definition's. -/
theorem sampleFieldsComeFromTheirOwnFields : Obligations.SampleFieldsComeFromTheirOwnFields :=
  ⟨fun _ => ⟨rfl, rfl, rfl, rfl, rfl, rfl, rfl, rfl, rfl, rfl, rfl⟩,
    fun _ => ⟨rfl, rfl, rfl, rfl, rfl, rfl, rfl, rfl, rfl⟩⟩

end

section
/-! PROOFS. The kick detector (spec/41_kick_detector.md R71 to R82): the branches of an evaluation, the threshold writes and
their clamp, and when a cycle can make a kick. -/

namespace Sys2Proof.Machine

variable {s t : State} {v upper lower : Word}

/-! ### The comparisons against each other (R12) -/

theorem gt32_eq_false_of_ge32 {a b : Word} (h : ge32 b a = true) : gt32 a b = false := by
  obtain ⟨-, -, hle⟩ := ge32_iff.mp h
  refine Bool.eq_false_iff.mpr fun hgt => ?_
  obtain ⟨-, -, hlt⟩ := gt32_iff.mp hgt
  exact hle.not_gt hlt

theorem lt32_eq_false_of_ge32 {a b : Word} (h : ge32 a b = true) : lt32 a b = false :=
  gt32_eq_lt32 b a ▸ gt32_eq_false_of_ge32 h

theorem ge32_of_gt32 {a b : Word} (h : gt32 a b = true) : ge32 a b = true := by
  obtain ⟨ha, hb, hlt⟩ := gt32_iff.mp h
  exact ge32_iff.mpr ⟨ha, hb, hlt.le⟩

theorem ge32_trans {a b c : Word} (hab : ge32 a b = true) (hbc : ge32 b c = true) : ge32 a c = true := by
  obtain ⟨ha, -, hle⟩ := ge32_iff.mp hab
  obtain ⟨-, hc, hle'⟩ := ge32_iff.mp hbc
  exact ge32_iff.mpr ⟨ha, hc, hle'.trans hle⟩

/-! ### One evaluation, by the mode it starts in (R71, R72) -/

@[simp] theorem armedAfter_armed : armedAfter true v upper lower = !gt32 v upper := by
  simp [armedAfter_eq]

@[simp] theorem armedAfter_disarmed : armedAfter false v upper lower = lt32 v lower := by
  simp [armedAfter_eq]

@[simp] theorem kickOf_armed : kickOf true v upper = if gt32 v upper = true then some (intensity v upper) else none := rfl

@[simp] theorem kickOf_disarmed : kickOf false v upper = none := rfl

/-- An evaluation writes the mode and the kick of its cycle. -/
theorem evaluate_eq {armed : Bool} {kick : Option Word} (harmed : armedAfter s.armed v s.upper s.lower = armed)
    (hkick : (kickOf s.armed v s.upper).or s.cycleKick = kick) :
    evaluate s v = { s with armed := armed, cycleKick := kick } := by
  rw [← harmed, ← hkick, evaluate]

theorem evaluate_trigger (ha : s.armed = true) (hgt : gt32 v s.upper = true) :
    evaluate s v = { s with armed := false, cycleKick := some (intensity v s.upper) } :=
  evaluate_eq (by simp [ha, hgt]) (by simp [ha, hgt])

theorem evaluate_rearm (ha : s.armed = false) (hlt : lt32 v s.lower = true) : evaluate s v = { s with armed := true } :=
  evaluate_eq (by simp [ha, hlt]) (by simp [ha])

theorem evaluate_armed_quiet (ha : s.armed = true) (hgt : gt32 v s.upper = false) : evaluate s v = s :=
  evaluate_eq (armed := s.armed) (by simp [ha, hgt]) (by simp [ha, hgt])

theorem evaluate_disarmed_quiet (ha : s.armed = false) (hlt : lt32 v s.lower = false) : evaluate s v = s :=
  evaluate_eq (armed := s.armed) (by simp [ha, hlt]) (by simp [ha])

/-- The third branch of R71. -/
theorem evaluate_quiet (htrigger : ¬ (s.armed = true ∧ gt32 v s.upper = true))
    (hrearm : ¬ (s.armed = false ∧ lt32 v s.lower = true)) : evaluate s v = s := by
  cases ha : s.armed
  · exact evaluate_disarmed_quiet ha (Bool.eq_false_iff.mpr fun hlt => hrearm ⟨ha, hlt⟩)
  · exact evaluate_armed_quiet ha (Bool.eq_false_iff.mpr fun hgt => htrigger ⟨ha, hgt⟩)

theorem exec_process_of_seen (hs : s.resetSeen = true) (hv : isFinite v = true) :
    exec (.process v) s = .next (evaluate s v) :=
  (exec_process hv).trans (afterReset_of_seen hs)

theorem exec_process_of_nonFinite (hv : isFinite v = false) (s : State) :
    exec (.process v) s = .refused .nonFiniteInput := if_neg (Bool.eq_false_iff.mp hv)

/-- Zero is below every legal `lower`. -/
theorem lt32_zero_of_legalLower (h : legalLower lower) : lt32 0#32 lower = true := by
  obtain ⟨hnan, -, hfloor⟩ := ge32_iff.mp h
  have hpos : orderKey 0#32 < orderKey lowerFloor := by decide
  exact lt32_iff.mpr ⟨by decide, hnan, hpos.trans_le hfloor⟩

/-- The largest compensated magnitude bounds that of every frame (R70). -/
theorem largestComp_ge_decodeFrame_comp (f : RawFrame) : ge32 0x41CCFB85#32 (decodeFrame f).comp = true := by
  have hf := decodeFrame_comp_isFinite f
  refine ge32_iff.mpr ⟨by decide, (not_nan_of_finite hf).1, ?_⟩
  have hmax : orderKey 0x41CCFB85#32 = 0x41CCFB85 := by decide
  have hkey : orderKey (decodeFrame f).comp ≤ magField (decodeFrame f).comp := by
    unfold orderKey
    split <;> omega
  have hmag := magField_eq (decodeFrame f).comp
  rcases decodeFrame_comp_range f with h | ⟨-, h⟩
  · rw [h]; decide
  · omega

/-! ### The threshold writes and their clamp (R73 to R77) -/

/-- What the clamp needs of a floor: a normal positive value. -/
structure IsFloor (floor : Word) : Prop where
  finite : isFinite floor = true
  normal : 2 ^ 23 ≤ orderKey floor

theorem isFloor_of_eq {floor : Word} (h : floor = upperFloor ∨ floor = lowerFloor) : IsFloor floor := by
  rcases h with rfl | rfl
  · exact ⟨by decide, by decide⟩
  · exact ⟨by decide, by decide⟩

section Clamp
variable {p floor : Word}

theorem clampFloor_of_ge32 (h : ge32 p floor = true) : clampFloor p floor = p := if_pos h

theorem clampFloor_of_not_ge32 (h : ge32 p floor = false) : clampFloor p floor = floor := if_neg (Bool.eq_false_iff.mp h)

theorem clampFloor_of_orderKey_lt (h : orderKey p < orderKey floor) : clampFloor p floor = floor := by
  refine clampFloor_of_not_ge32 (Bool.eq_false_iff.mpr fun hge => ?_)
  obtain ⟨-, -, hle⟩ := ge32_iff.mp hge
  exact hle.not_gt h

theorem orderKey_nonpos_of_signBit (h : signBit p = true) : orderKey p ≤ 0 := by
  rw [orderKey, if_pos h]
  omega

theorem orderKey_lt_of_expField_eq_zero (h : expField p = 0) : orderKey p < 2 ^ 23 := by
  rw [expField_eq] at h
  unfold orderKey
  split <;> omega

theorem IsFloor.ge32_self (h : IsFloor floor) : ge32 floor floor = true := (ge32_iff_valueOf h.finite h.finite).mpr le_rfl

theorem IsFloor.clamp_of_le (h : IsFloor floor) (hp : isFinite p = true) (hle : valueOf floor ≤ valueOf p) :
    clampFloor p floor = p := clampFloor_of_ge32 ((ge32_iff_valueOf hp h.finite).mpr hle)

theorem IsFloor.clamp_infinity (h : IsFloor floor) : clampFloor 0x7F800000#32 floor = 0x7F800000#32 :=
  clampFloor_of_ge32 (ge32_of_gt32 (infinities_beyond_finite h.finite).1)

theorem clampFloor_of_isNaN (hp : isNaN p = true) : clampFloor p floor = floor := by
  obtain ⟨-, -, hge⟩ := comparisons_false_of_nan (b := floor) (.inl hp)
  exact clampFloor_of_not_ge32 hge

theorem IsFloor.clamp_negative (h : IsFloor floor) (hp : signBit p = true) : clampFloor p floor = floor := by
  have hkey := orderKey_nonpos_of_signBit hp
  have hnormal := h.normal
  exact clampFloor_of_orderKey_lt (by omega)

theorem IsFloor.clamp_subnormal (h : IsFloor floor) (hp : expField p = 0) : clampFloor p floor = floor :=
  clampFloor_of_orderKey_lt ((orderKey_lt_of_expField_eq_zero hp).trans_le h.normal)

theorem clampFloor_of_lt (hlt : valueOf p < valueOf floor) : clampFloor p floor = floor :=
  clampFloor_of_orderKey_lt (orderKey_lt_iff.mpr (valueOf_lt.mp hlt))

end Clamp

theorem setArmed_of_armed (h : s.armed = true) : setArmed s = s := by rw [setArmed, ← h]

/-! ### When a cycle makes a kick (R79) -/

/-- A kick comes from an Armed start and the cycle's own sample; only a REARM of the same cycle arms again. -/
theorem step_kick (h : step s = .next t) (hkick : t.cycleKick.isSome = true) :
    s.armed = true ∧ t.cycleSample.isSome = true ∧ t.armed = (nextPorts s).rearm := by
  rcases step_events_cases h with ⟨-, -, hnone, -⟩ | ⟨-, -, -, hnone, -⟩ | ⟨-, -, f, hsample, hk, harmed, -⟩
  · simp [hnone] at hkick
  · simp [hnone] at hkick
  · rw [hk] at hkick
    cases ha : s.armed
    · simp [ha] at hkick
    · have hgt : gt32 (decodeFrame f).comp s.upper = true := by
        by_contra hle
        simp [ha, hle] at hkick
      exact ⟨rfl, by simp [hsample], by simp [harmed, ha, hgt]⟩

/-- A cycle that leaves a Disarmed detector as it is (R79): no RESET, no REARM, no sample below `lower`. -/
def KeepsDisarmed (a b : State) : Prop :=
  (nextPorts a).rst = false ∧ (nextPorts a).rearm = false ∧ ∀ x ∈ b.cycleSample, lt32 x.comp a.lower = false

theorem step_disarmed (h : step s = .next t) (ha : s.armed = false) (hkeeps : KeepsDisarmed s t) :
    t.armed = false ∧ t.cycleKick = none := by
  obtain ⟨hrst, hrearm, habove⟩ := hkeeps
  rcases step_events_cases h with ⟨hr, -⟩ | ⟨-, -, -, hk, harmed⟩ | ⟨-, -, f, hsample, hk, harmed, -⟩
  · simp [hr] at hrst
  · exact ⟨by simp [harmed, hrearm, ha], hk⟩
  · have hge := habove (decodeFrame f) hsample
    exact ⟨by simp [harmed, hrearm, ha, hge], by simp [hk, ha]⟩

theorem kicksIn_succ (h : step s = .next t) (n : Nat) : kicksIn (n + 1) s = t.cycleKick.toList ++ kicksIn n t := by
  simp only [kicksIn, h]

theorem runs_disarmed {n : Nat} {u : State} (hrun : Runs n s u) (ha : s.armed = false)
    (hkeeps : ∀ (k : Nat) (a b : State), k < n → Runs k s a → step a = .next b → KeepsDisarmed a b) :
    kicksIn n s = [] ∧ u.armed = false := by
  induction hrun with
  | zero => exact ⟨rfl, ha⟩
  | @succ n s t u hstep hrest ih =>
    obtain ⟨hta, hnone⟩ := step_disarmed hstep ha (hkeeps 0 s t n.succ_pos (.zero s) hstep)
    obtain ⟨hkicks, hu⟩ := ih hta fun k a b hk hka hab => hkeeps (k + 1) a b (Nat.succ_lt_succ hk) (.succ hstep hka) hab
    exact ⟨by rw [kicksIn_succ hstep, hnone, hkicks]; rfl, hu⟩

end Sys2Proof.Machine

open Sys2Proof Sys2Proof.Machine

/-- Settles O9: the branches of an evaluation, which PROCESS of a finite value performs. -/
theorem processHasThreeBranches : Obligations.ProcessHasThreeBranches := by
  intro v s hs hv
  rw [exec_process_of_seen hs hv]
  exact ⟨fun ha hgt => congrArg _ (evaluate_trigger ha hgt), fun ha hlt => congrArg _ (evaluate_rearm ha hlt),
    fun htrigger hrearm => congrArg _ (evaluate_quiet htrigger hrearm)⟩

/-- Settles O10: the range of a compensated magnitude holds no infinity and no NaN. -/
theorem nonFiniteInputCannotOccur : Obligations.NonFiniteInputCannotOccur :=
  ⟨decodeFrame_comp_isFinite, fun _ s hv => exec_process_of_nonFinite hv s⟩

/-- Settles O33: both floors are normal positive values. -/
theorem clampKeepsOrRaisesToFloor : Obligations.ClampKeepsOrRaisesToFloor := by
  intro floor hfloor
  have h : IsFloor floor := isFloor_of_eq hfloor
  exact ⟨fun _ => h.clamp_of_le, h.clamp_infinity, fun _ => clampFloor_of_isNaN, fun _ => h.clamp_negative,
    fun _ => h.clamp_subnormal, fun _ _ => clampFloor_of_lt, clampFloor_ge h.ge32_self⟩

/-- Settles O34: two neighbouring values differ by more than half a step of 1, so their quotient rounds above 1. -/
theorem intensityIsBounded : Obligations.IntensityIsBounded :=
  ⟨fun _ _ hv hu hgt => intensity_inRange hv hu hgt, by decide +kernel⟩

/-- Settles O35: the ways a cycle can make events. -/
theorem kickNeedsArmedDetector : Obligations.KickNeedsArmedDetector :=
  fun _ _ hstep => ⟨step_kick hstep, fun ha hrst hrearm habove => step_disarmed hstep ha ⟨hrst, hrearm, habove⟩⟩

/-- Settles O36, by induction on the run. -/
theorem disarmedDetectorStaysSilent : Obligations.DisarmedDetectorStaysSilent :=
  fun _ _ _ hrun ha hkeeps => runs_disarmed hrun ha hkeeps

/-- Settles O37: each ordering decides which comparison can hold. -/
theorem thresholdOrderings : Obligations.ThresholdOrderings := by
  intro s v hs hv
  rw [exec_process_of_seen hs hv, exec_process_of_seen hs (by decide)]
  refine ⟨fun _ hlower hupper => ?deadband, fun heq _ => ⟨fun ha hgt => ?equalArmed, fun ha hlt => ?equalDisarmed⟩,
    fun hgt hlt => ⟨fun ha => ⟨intensity v s.upper, ?crossedArmed⟩, fun ha => ?crossedDisarmed⟩, fun hlegal ha => ?zero⟩
  case deadband =>
    have hgt := gt32_eq_false_of_ge32 hupper
    have hlt := lt32_eq_false_of_ge32 hlower
    rw [evaluate_quiet (by simp [hgt]) (by simp [hlt])]
  case equalArmed => rw [evaluate_armed_quiet ha hgt]
  case equalDisarmed => rw [evaluate_disarmed_quiet ha (heq ▸ hlt)]
  case crossedArmed => rw [evaluate_trigger ha hgt]
  case crossedDisarmed => rw [evaluate_rearm ha hlt]
  case zero => rw [evaluate_rearm ha (lt32_zero_of_legalLower hlegal)]

/-- Settles O38: a compensated magnitude is at most the largest one, and finite. -/
theorem extremeThresholds : Obligations.ExtremeThresholds := by
  refine fun f s hs => ⟨fun hupper => ⟨_, exec_frameDecode_of_seen f hs, ?_⟩,
    fun hlower ha => ⟨_, exec_frameDecode_of_seen f hs, ?_⟩⟩
  · have hquiet := gt32_eq_false_of_ge32 (ge32_trans hupper (largestComp_ge_decodeFrame_comp f))
    exact ⟨by simp [kickOf_or_eq, hquiet], fun ha => by simp [ha, hquiet]⟩
  · have hbelow := (infinities_beyond_finite (decodeFrame_comp_isFinite f)).1
    rw [gt32_eq_lt32] at hbelow
    simp [ha, hlower, hbelow]

/-- Settles O11: the write is the definition's clamp against its floor. -/
theorem setUpperStoresClamped : Obligations.SetUpperStoresClamped :=
  fun _ _ hs => afterReset_of_seen hs

/-- Settles O12: the write is the definition's clamp against its floor. -/
theorem setLowerStoresClamped : Obligations.SetLowerStoresClamped :=
  fun _ _ hs => afterReset_of_seen hs

/-- Settles O13: the two writes are to different registers. -/
theorem setThresholdsStoresBothClamped : Obligations.SetThresholdsStoresBothClamped :=
  fun _ _ _ hs => afterReset_of_seen hs

/-- Settles O14: arming an Armed detector writes the value it has. -/
theorem rearmArmsOnly : Obligations.RearmArmsOnly :=
  fun _ hs => ⟨afterReset_of_seen hs, fun ha => (afterReset_of_seen hs).trans (congrArg _ (setArmed_of_armed ha))⟩

end

section
/-! PROOFS. The cycle (spec/42_cycle_step.md R83 to R88): the composition of its operations, the output pipeline behind it,
and the agreement of the cycle level with the transaction level. -/

namespace Sys2Proof.Machine

variable {s t u : State}

/-! ### The output pipeline along a run (R85) -/

/-- What one clock of the pipeline gives, as the state holds it. -/
def Clocked (clocked : Option Effects × List Effects) (t : State) : Prop :=
  t.pipe = clocked.2 ∧ ∃ n, t.ports = present clocked.1 n

/-- A cycle without RESET clocks its effects into the pipeline it finds. -/
theorem cycle_clocked {lat : Nat} (h : cycle lat s = .next t) (hrst : (nextPorts s).rst = false) :
    Clocked (clockPipe lat s.pipe (cycleEffects t)) t := by
  obtain ⟨-, rfl⟩ := cycle_cases.mp h
  have hpipe : (cycleBody (nextPorts s) (beginCycle s)).pipe = s.pipe := by simp [cycleBody_no_rst hrst]
  rw [← hpipe]
  exact ⟨rfl, _, rfl⟩

/-- A RESET cycle clocks its effects into an empty pipeline. -/
theorem cycle_clocked_reset {lat : Nat} (h : cycle lat s = .next t) (hrst : (nextPorts s).rst = true) :
    Clocked (clockPipe lat [] (cycleEffects t)) t := by
  obtain ⟨-, rfl⟩ := cycle_cases.mp h
  rw [cycleBody_rst hrst]
  exact ⟨rfl, _, rfl⟩

/-- The effects `e` are on the ports, or stand in a pipeline no fuller than the latency allows, at the place from which
`m` further clocks bring them to the ports. -/
def Due (lat : Nat) (e : Effects) : Nat → Option Effects × List Effects → Prop
  | 0, clocked => clocked.1 = some e
  | m + 1, clocked =>
    clocked.2.length < lat ∧ ∃ before after, clocked.2 = before ++ e :: after ∧ after.length + m + 2 = lat

/-- One clock brings each of the effects in the pipeline, the entering ones among them, one place nearer to the ports. -/
theorem clockPipe_due {lat m : Nat} {pipe before after : List Effects} {d e : Effects} (hshort : pipe.length < lat)
    (hplace : pipe ++ [d] = before ++ e :: after) (hm : after.length + m + 1 = lat) :
    Due lat e m (clockPipe lat pipe d) := by
  have hlen : pipe.length + 1 = before.length + (after.length + 1) := by simpa using congrArg List.length hplace
  rw [clockPipe, hplace]
  simp only [List.length_append, List.length_cons]
  split
  case isTrue hfilling =>
    obtain ⟨m, rfl⟩ : ∃ k, m = k + 1 := ⟨m - 1, by omega⟩
    exact ⟨by simpa using hfilling, before, after, rfl, by omega⟩
  case isFalse hfull =>
    cases before with
    | nil =>
      rw [List.length_nil] at hlen hfull
      obtain rfl : m = 0 := by omega
      rfl
    | cons first before =>
      rw [List.length_cons] at hlen
      obtain ⟨m, rfl⟩ : ∃ k, m = k + 1 := ⟨m - 1, by omega⟩
      exact ⟨by simp; omega, before, after, rfl, by omega⟩

theorem due_next {lat m : Nat} {e d : Effects} {clocked : Option Effects × List Effects} (h : Due lat e (m + 1) clocked) :
    Due lat e m (clockPipe lat clocked.2 d) := by
  obtain ⟨hshort, before, after, hplace, hm⟩ := h
  exact clockPipe_due (before := before) (after := after ++ [d]) hshort (by simp [hplace]) (by simp; omega)

/-- None of the first `m` cycles of a run from `t` is a RESET cycle. -/
def NoReset (lat m : Nat) (t : State) : Prop := ∀ k a, k < m → RunsAt lat k t a → (nextPorts a).rst = false

theorem NoReset.head {lat m : Nat} (h : NoReset lat (m + 1) t) : (nextPorts t).rst = false := h 0 t m.succ_pos (.zero t)

theorem NoReset.tail {lat m : Nat} (h : NoReset lat (m + 1) s) (hcycle : cycle lat s = .next t) : NoReset lat m t :=
  fun k a hk hrun => h (k + 1) a (Nat.succ_lt_succ hk) (.succ hcycle hrun)

/-- A run without RESET from a state whose pipeline holds `e` puts `e` on the ports when it is due. -/
theorem runsAt_shows {lat m : Nat} {e : Effects} {clocked : Option Effects × List Effects} (hrun : RunsAt lat m t u)
    (hrst : NoReset lat m t) (hdue : Due lat e m clocked) (hclocked : Clocked clocked t) :
    ∃ n, u.ports = present (some e) n := by
  induction hrun generalizing clocked with
  | zero =>
    obtain ⟨-, n, hports⟩ := hclocked
    exact ⟨n, hdue ▸ hports⟩
  | @succ m t a u hcycle _ ih =>
    obtain ⟨hpipe, -⟩ := hclocked
    exact ih (hrst.tail hcycle) (due_next hdue) (hpipe ▸ cycle_clocked hcycle hrst.head)

/-- Both strobes are 0. -/
def StrobesLow (t : State) : Prop := t.ports.smpValid = false ∧ t.ports.kickValid = false

/-- While the pipeline fills, nothing is shown. -/
theorem Clocked.filling {lat : Nat} {pipe : List Effects} {e : Effects} (h : Clocked (clockPipe lat pipe e) t)
    (hfilling : pipe.length + 1 < lat) : t.pipe.length = pipe.length + 1 ∧ StrobesLow t := by
  have hclock : clockPipe lat pipe e = (none, pipe ++ [e]) := by rw [clockPipe, if_pos (by simpa using hfilling)]
  obtain ⟨hpipe, n, hports⟩ := hclock ▸ h
  exact ⟨by simp [hpipe], by simp [StrobesLow, hports]⟩

theorem runsAt_strobesLow {lat n : Nat} (hrun : RunsAt lat n t u) (hrst : NoReset lat n t)
    (hfilling : t.pipe.length + n < lat) (hlow : StrobesLow t) : StrobesLow u := by
  induction hrun with
  | zero => exact hlow
  | @succ n t a u hcycle _ ih =>
    obtain ⟨hlen, hla⟩ := (cycle_clocked hcycle hrst.head).filling (by omega)
    exact ih (hrst.tail hcycle) (by omega) hla

/-- Every cycle, RESET or not, clocks its effects into a pipeline no fuller than the one it finds. -/
theorem cycle_clocks {lat : Nat} (h : cycle lat s = .next t) :
    ∃ pipe, pipe.length ≤ s.pipe.length ∧ Clocked (clockPipe lat pipe (cycleEffects t)) t := by
  cases hrst : (nextPorts s).rst
  · exact ⟨s.pipe, le_rfl, cycle_clocked h hrst⟩
  · exact ⟨[], Nat.zero_le _, cycle_clocked_reset h hrst⟩

/-! ### The composition of a cycle (R84) -/

theorem exec_idle_of_seen (hs : s.resetSeen = true) : exec .idle s = .next s := afterReset_of_seen hs

/-- A cycle of IDLE alone is the sampling of the ports and the clock edge. -/
theorem step_idle (hs : s.resetSeen = true) (hops : decodePorts (nextPorts s) = [.idle]) :
    step s = .next (endCycle Config.decLatency (beginCycle s)) :=
  step_eq_next.mpr ⟨_, hops ▸ execAll_single (exec_idle_of_seen (by simpa using hs)), rfl⟩

theorem step_refused {i : Instr} {r : Refusal} (hops : decodePorts (nextPorts s) = [i])
    (h : exec i (beginCycle s) = .refused r) : step s = .refused r := by
  simp only [step, cycle, hops, execAll_cons_refused [] h]

theorem byteStage_not_valid {p : PortIn} (hv : p.inValid = false) (s : State) : byteStage p s = s := by
  simp [byteStage, hv]

theorem exec_byte_byteStage {p : PortIn} (hs : s.resetSeen = true) (hv : p.inValid = true) (hl : p.inLast = false) :
    exec (.byte p.inData) s = .next (byteStage p s) := by
  rw [exec_byte_of_seen _ hs, byteStage, if_pos hv, hl]
  rfl

theorem exec_byteLast_byteStage {p : PortIn} (hs : s.resetSeen = true) (hv : p.inValid = true) (hl : p.inLast = true) :
    exec (.byteLast p.inData) s = .next (byteStage p s) := by
  rw [exec_byteLast_of_seen _ hs, byteStage, if_pos hv, if_pos hl]
  rfl

/-! ### The window grows by at most one byte a cycle (R87) -/

theorem windowTest_window_length_le (s : State) : (windowTest s).window.length ≤ s.window.length := by
  rcases windowTest_cases s with ⟨-, -, h⟩ | ⟨-, -, h⟩ | ⟨-, h⟩ <;> simp [h]

theorem byteStage_window_length_le (p : PortIn) (s : State) : (byteStage p s).window.length ≤ s.window.length + 1 := by
  have haccept : (acceptByte s p.inData).window.length ≤ s.window.length + 1 := by
    simpa [acceptByte] using windowTest_window_length_le (appendByte s p.inData)
  unfold byteStage
  split
  · split
    · simp
    · exact haccept
  · omega

theorem step_window_length_le (h : step s = .next t) : t.window.length ≤ s.window.length + 1 := by
  obtain ⟨-, rfl⟩ := step_iff.mp h
  cases hrst : (nextPorts s).rst
  · simpa [cycleBody_no_rst hrst] using byteStage_window_length_le (nextPorts s) (beginCycle s)
  · simp [cycleBody_rst hrst]

/-- A sample needs a window one byte short of a frame, and leaves it empty. -/
theorem step_sample (h : step s = .next t) (hsample : t.cycleSample.isSome = true) :
    s.window.length + 1 = frameLen ∧ t.window = [] := by
  rcases step_events_cases h with ⟨-, hnone, -⟩ | ⟨-, -, hnone, -⟩ | ⟨-, -, f, -, -, -, -, hlen, hempty⟩
  · simp [hnone] at hsample
  · simp [hnone] at hsample
  · exact ⟨hlen, hempty⟩

/-- No sample is made before the window can have filled. -/
theorem samplesIn_eq_nil {n : Nat} (hrun : Runs n s u) (hshort : s.window.length + n < frameLen) : samplesIn n s = [] := by
  induction hrun with
  | zero => rfl
  | @succ n s t u hstep _ ih =>
    have hgrow := step_window_length_le hstep
    have hnone : t.cycleSample = none := by
      by_contra hsome
      obtain ⟨hlen, -⟩ := step_sample hstep (Option.isSome_iff_ne_none.mpr hsome)
      omega
    rw [samplesIn_succ hstep, hnone, ih (by omega)]
    rfl

/-! ### Operations read the core state only (R88) -/

/-- Two states that the operations cannot tell apart: they differ at most in their events, the output side and the host's
inputs. -/
structure SameCore (a b : State) : Prop where
  window : a.window = b.window
  armed : a.armed = b.armed
  upper : a.upper = b.upper
  lower : a.lower = b.lower
  resetSeen : a.resetSeen = b.resetSeen

/-- Two states that hold the same sample and the same kick. -/
def SameEvents (a b : State) : Prop := a.cycleSample = b.cycleSample ∧ a.cycleKick = b.cycleKick

theorem SameCore.refl (s : State) : SameCore s s := ⟨rfl, rfl, rfl, rfl, rfl⟩

theorem SameCore.coreState {a b : State} (h : SameCore a b) : coreState a = coreState b := by
  simp only [Machine.coreState, h.window, h.armed, h.upper, h.lower]

theorem SameCore.withoutEvents {a b : State} (h : SameCore a b) : SameCore a (withoutEvents b) :=
  ⟨h.window, h.armed, h.upper, h.lower, h.resetSeen⟩

theorem SameCore.beginCycle {a b : State} (h : SameCore a b) : SameCore (beginCycle a) b :=
  ⟨h.window, h.armed, h.upper, h.lower, h.resetSeen⟩

theorem SameCore.endCycle {a b : State} (h : SameCore a b) (lat : Nat) : SameCore (endCycle lat a) b :=
  ⟨h.window, h.armed, h.upper, h.lower, h.resetSeen⟩

/-- `f` acts on the core state alone, and what it makes of the events depends on the core state and the events alone. -/
def ActsOnCore (f : State → State) : Prop :=
  ∀ a b, SameCore a b → SameCore (f a) (f b) ∧ (SameEvents a b → SameEvents (f a) (f b))

theorem ActsOnCore.comp {f g : State → State} (hf : ActsOnCore f) (hg : ActsOnCore g) : ActsOnCore fun s => g (f s) := by
  intro a b h
  obtain ⟨hcore, hevents⟩ := hf a b h
  obtain ⟨hcore', hevents'⟩ := hg _ _ hcore
  exact ⟨hcore', fun he => hevents' (hevents he)⟩

theorem appendByte_actsOnCore (x : Byte) : ActsOnCore (appendByte · x) :=
  fun _ _ h => ⟨⟨congrArg (· ++ [x]) h.window, h.armed, h.upper, h.lower, h.resetSeen⟩, id⟩

theorem clearWindow_actsOnCore : ActsOnCore clearWindow :=
  fun _ _ h => ⟨⟨rfl, h.armed, h.upper, h.lower, h.resetSeen⟩, id⟩

theorem dropOldest_actsOnCore : ActsOnCore dropOldest :=
  fun _ _ h => ⟨⟨congrArg List.tail h.window, h.armed, h.upper, h.lower, h.resetSeen⟩, id⟩

theorem emitSample_actsOnCore (x : Sample) : ActsOnCore (emitSample · x) :=
  fun _ _ h => ⟨⟨h.window, h.armed, h.upper, h.lower, h.resetSeen⟩, fun ⟨_, hkick⟩ => ⟨rfl, hkick⟩⟩

theorem evaluate_actsOnCore (v : Word) : ActsOnCore (evaluate · v) := by
  refine fun a b h => ⟨⟨h.window, ?_, h.upper, h.lower, h.resetSeen⟩, fun ⟨hsample, hkick⟩ => ⟨hsample, ?_⟩⟩
  · simp only [evaluate_armed, h.armed, h.upper, h.lower]
  · simp only [evaluate_cycleKick, h.armed, h.upper, hkick]

theorem decodeAndEvaluate_actsOnCore (f : RawFrame) : ActsOnCore (decodeAndEvaluate · f) :=
  ((emitSample_actsOnCore _).comp (evaluate_actsOnCore _)).comp clearWindow_actsOnCore

theorem windowTest_actsOnCore : ActsOnCore windowTest := by
  intro a b h
  rcases windowTest_cases a with ⟨hl, hh, ha⟩ | ⟨hl, hh, ha⟩ | ⟨hl, ha⟩ <;> rw [h.window] at hl
  · rw [h.window] at hh ha
    rw [ha, windowTest_frame hl hh]
    exact decodeAndEvaluate_actsOnCore _ a b h
  · rw [h.window] at hh
    rw [ha, windowTest_skip hl hh]
    exact dropOldest_actsOnCore a b h
  · rw [ha, windowTest_notFull hl]
    exact ⟨h, id⟩

theorem acceptByte_actsOnCore (x : Byte) : ActsOnCore (acceptByte · x) :=
  (appendByte_actsOnCore x).comp windowTest_actsOnCore

theorem writeUpper_actsOnCore (p : Word) : ActsOnCore (writeUpper · p) :=
  fun _ _ h => ⟨⟨h.window, h.armed, rfl, h.lower, h.resetSeen⟩, id⟩

theorem writeLower_actsOnCore (p : Word) : ActsOnCore (writeLower · p) :=
  fun _ _ h => ⟨⟨h.window, h.armed, h.upper, rfl, h.resetSeen⟩, id⟩

theorem setArmed_actsOnCore : ActsOnCore setArmed :=
  fun _ _ h => ⟨⟨h.window, rfl, h.upper, h.lower, h.resetSeen⟩, id⟩

theorem afterReset_simulates {f : State → State} (hf : ActsOnCore f) {a b c : State} (h : SameCore a b)
    (ha : afterReset a (f a) = .next c) :
    ∃ d, afterReset b (f b) = .next d ∧ SameCore c d ∧ (SameEvents a b → SameEvents c d) := by
  obtain ⟨hs, rfl⟩ := afterReset_eq_next.mp ha
  exact ⟨f b, afterReset_of_seen (h.resetSeen ▸ hs), hf a b h⟩

/-- An operation that completes in one state completes in every state with the same core state, to the same core state;
the events it makes are the same too. -/
theorem exec_simulates {i : Instr} {a b c : State} (h : SameCore a b) (ha : exec i a = .next c) :
    ∃ d, exec i b = .next d ∧ SameCore c d ∧ (SameEvents a b → SameEvents c d) := by
  cases i with
  | reset => cases ha; exact ⟨hardReset b, rfl, ⟨rfl, rfl, rfl, rfl, rfl⟩, fun _ => ⟨rfl, rfl⟩⟩
  | idle => exact afterReset_simulates (f := id) (fun _ _ h => ⟨h, id⟩) h ha
  | byte x => exact afterReset_simulates (acceptByte_actsOnCore x) h ha
  | byteLast x => exact afterReset_simulates ((acceptByte_actsOnCore x).comp clearWindow_actsOnCore) h ha
  | setUpper p => exact afterReset_simulates (writeUpper_actsOnCore p) h ha
  | setLower p => exact afterReset_simulates (writeLower_actsOnCore p) h ha
  | setThresholds pu pl => exact afterReset_simulates ((writeUpper_actsOnCore pu).comp (writeLower_actsOnCore pl)) h ha
  | rearm => exact afterReset_simulates setArmed_actsOnCore h ha
  | frameDecode f => exact afterReset_simulates (decodeAndEvaluate_actsOnCore f) h ha
  | windowSkip w0 w1 => exact afterReset_simulates dropOldest_actsOnCore h ha
  | process v =>
    cases hv : isFinite v
    · rw [exec_process_of_nonFinite hv] at ha
      cases ha
    · rw [exec_process hv] at ha ⊢
      exact afterReset_simulates (evaluate_actsOnCore v) h ha

/-! ### Lists of operations (R6, R88) -/

/-- The samples and kicks in `e`, before those that `ops` make from `s`. -/
def eventsThen (e : State) (ops : List Instr) (s : State) : List Sample × List Word :=
  (e.cycleSample.toList ++ (eventsOf ops s).1, e.cycleKick.toList ++ (eventsOf ops s).2)

theorem stateAfter_cons {i : Instr} (h : exec i s = .next t) (rest : List Instr) :
    stateAfter (i :: rest) s = stateAfter rest t := by
  simp only [stateAfter, h]

theorem eventsOf_cons {i : Instr} (h : exec i (withoutEvents s) = .next t) (rest : List Instr) :
    eventsOf (i :: rest) s = eventsThen t rest t := by
  simp only [eventsOf, eventsThen, h]

theorem eventsThen_of_none {e : State} (h : SameEvents e (withoutEvents t)) (ops : List Instr) (s : State) :
    eventsThen e ops s = eventsOf ops s := by
  obtain ⟨hsample, hkick⟩ := h
  simp [eventsThen, hsample, hkick, withoutEvents]

theorem stateAfter_simulates {ops : List Instr} {a b c : State} (h : SameCore a b) (ha : execAll ops a = .next c) :
    ∃ d, SameCore c d ∧ ∀ more, stateAfter (ops ++ more) b = stateAfter more d := by
  induction ops generalizing a b with
  | nil => cases ha; exact ⟨b, h, fun _ => rfl⟩
  | cons i rest ih =>
    obtain ⟨a', hi, hrest⟩ := execAll_cons_eq_next.mp ha
    obtain ⟨b', hb, hcore, -⟩ := exec_simulates h hi
    obtain ⟨d, hd, hmore⟩ := ih hcore hrest
    exact ⟨d, hd, fun more => (stateAfter_cons hb _).trans (hmore more)⟩

/-- An operation that makes no event and clears none. -/
def KeepsEvents (i : Instr) : Prop := ∀ s t, exec i s = .next t → SameEvents t s

theorem keepsEvents_of_afterReset {i : Instr} {f : State → State} (hi : ∀ s, exec i s = afterReset s (f s))
    (hf : ∀ s, SameEvents (f s) s) : KeepsEvents i := by
  intro s t h
  rw [hi] at h
  obtain ⟨-, rfl⟩ := afterReset_eq_next.mp h
  exact hf s

theorem rearm_keepsEvents : KeepsEvents .rearm :=
  keepsEvents_of_afterReset (f := setArmed) (fun _ => rfl) fun _ => ⟨rfl, rfl⟩

theorem setUpper_keepsEvents (p : Word) : KeepsEvents (.setUpper p) :=
  keepsEvents_of_afterReset (f := (writeUpper · p)) (fun _ => rfl) fun _ => ⟨rfl, rfl⟩

theorem setLower_keepsEvents (p : Word) : KeepsEvents (.setLower p) :=
  keepsEvents_of_afterReset (f := (writeLower · p)) (fun _ => rfl) fun _ => ⟨rfl, rfl⟩

theorem setThresholds_keepsEvents (pu pl : Word) : KeepsEvents (.setThresholds pu pl) :=
  keepsEvents_of_afterReset (f := fun s => writeLower (writeUpper s pu) pl) (fun _ => rfl) fun _ => ⟨rfl, rfl⟩

theorem rearmGroup_keepsEvents (p : PortIn) : ∀ i ∈ rearmGroup p, KeepsEvents i := by
  rw [rearmGroup_eq]
  split
  · exact List.forall_mem_singleton.mpr rearm_keepsEvents
  · nofun

theorem configGroup_keepsEvents (p : PortIn) : ∀ i ∈ configGroup p, KeepsEvents i := by
  rw [configGroup_eq]
  split
  · exact List.forall_mem_singleton.mpr (setUpper_keepsEvents _)
  split
  · exact List.forall_mem_singleton.mpr (setLower_keepsEvents _)
  split
  · exact List.forall_mem_singleton.mpr (setThresholds_keepsEvents _ _)
  · nofun

theorem byteGroup_cases (p : PortIn) : byteGroup p = [] ∨ ∃ i, byteGroup p = [i] := by
  rw [byteGroup_eq]
  split
  · exact .inr ⟨_, rfl⟩
  split
  · exact .inr ⟨_, rfl⟩
  · exact .inl rfl

/-- Only the first operation of a cycle can make events: the byte comes before the writes (R84). -/
theorem decodePorts_tail_keepsEvents (p : PortIn) : ∀ i ∈ (decodePorts p).tail, KeepsEvents i := by
  have hwrites : ∀ i ∈ rearmGroup p ++ configGroup p, KeepsEvents i :=
    List.forall_mem_append.mpr ⟨rearmGroup_keepsEvents p, configGroup_keepsEvents p⟩
  rw [decodePorts_eq]
  split
  · nofun
  split
  · nofun
  rw [List.append_assoc]
  rcases byteGroup_cases p with hbyte | ⟨_, hbyte⟩ <;> rw [hbyte]
  · exact fun i hi => hwrites i (List.mem_of_mem_tail hi)
  · exact hwrites

/-- Operations that keep the events add none to those of the list they begin. -/
theorem eventsOf_keepsEvents {ops : List Instr} {a b c : State} (hkeeps : ∀ i ∈ ops, KeepsEvents i) (h : SameCore a b)
    (ha : execAll ops a = .next c) :
    SameEvents c a ∧ ∃ d, SameCore c d ∧ ∀ more, eventsOf (ops ++ more) b = eventsOf more d := by
  induction ops generalizing a b with
  | nil => cases ha; exact ⟨⟨rfl, rfl⟩, b, h, fun _ => rfl⟩
  | cons i rest ih =>
    obtain ⟨hi, hrest⟩ := List.forall_mem_cons.mp hkeeps
    obtain ⟨a', hia, hra⟩ := execAll_cons_eq_next.mp ha
    obtain ⟨b', hib, hcore, -⟩ := exec_simulates h.withoutEvents hia
    obtain ⟨⟨hsample, hkick⟩, d, hd, hmore⟩ := ih hrest hcore hra
    obtain ⟨hsample', hkick'⟩ := hi _ _ hia
    refine ⟨⟨hsample.trans hsample', hkick.trans hkick'⟩, d, hd, fun more => ?_⟩
    rw [List.cons_append, eventsOf_cons hib, eventsThen_of_none (hi _ _ hib), hmore]

/-! ### Cycles as lists of operations (R88) -/

theorem step_stateAfter {b : State} (h : SameCore s b) (hstep : step s = .next t) :
    ∃ d, SameCore t d ∧ ∀ more, stateAfter (decodePorts (nextPorts s) ++ more) b = stateAfter more d := by
  obtain ⟨c, hops, rfl⟩ := step_eq_next.mp hstep
  obtain ⟨d, hd, hmore⟩ := stateAfter_simulates h.beginCycle hops
  exact ⟨d, hd.endCycle _, hmore⟩

/-- The events of a cycle are those of its first operation. -/
theorem step_eventsOf {b : State} (h : SameCore s b) (hstep : step s = .next t) :
    ∃ d, SameCore t d ∧ ∀ more, eventsOf (decodePorts (nextPorts s) ++ more) b = eventsThen t more d := by
  obtain ⟨c, hops, rfl⟩ := step_eq_next.mp hstep
  obtain ⟨i, rest, hcons⟩ := List.exists_cons_of_ne_nil (decodePorts_ne_nil (nextPorts s))
  have hkeeps : ∀ j ∈ rest, KeepsEvents j := by simpa [hcons] using decodePorts_tail_keepsEvents (nextPorts s)
  rw [hcons] at hops ⊢
  obtain ⟨a, hia, hra⟩ := execAll_cons_eq_next.mp hops
  obtain ⟨b', hib, hcore, hevents⟩ := exec_simulates h.beginCycle.withoutEvents hia
  obtain ⟨⟨hsample, hkick⟩, d, hd, hmore⟩ := eventsOf_keepsEvents hkeeps hcore hra
  obtain ⟨hsample', hkick'⟩ := hevents ⟨rfl, rfl⟩
  refine ⟨d, hd.endCycle _, fun more => ?_⟩
  rw [List.cons_append, eventsOf_cons hib]
  simp only [eventsThen, endCycle_cycleSample, endCycle_cycleKick, hsample, hkick, hsample', hkick', hmore]

theorem step_inputs (h : step s = .next t) : t.inputs = s.inputs.tail := by
  obtain ⟨-, rfl⟩ := step_iff.mp h
  cases hrst : (nextPorts s).rst
  · simp [cycleBody_no_rst hrst]
  · simp [cycleBody_rst hrst]

theorem traceOf_succ (h : step s = .next t) (n : Nat) :
    traceOf (n + 1) s.inputs = decodePorts (nextPorts s) ++ traceOf n t.inputs := by
  rw [step_inputs h]
  rfl

theorem runs_stateAfter {n : Nat} {b : State} (hrun : Runs n s u) (h : SameCore s b) :
    ∃ v, stateAfter (traceOf n s.inputs) b = some v ∧ SameCore u v := by
  induction hrun generalizing b with
  | zero => exact ⟨b, rfl, h⟩
  | @succ n s t u hstep _ ih =>
    obtain ⟨d, hd, hmore⟩ := step_stateAfter h hstep
    rw [traceOf_succ hstep, hmore]
    exact ih hd

theorem runs_eventsOf {n : Nat} {b : State} (hrun : Runs n s u) (h : SameCore s b) :
    eventsOf (traceOf n s.inputs) b = (samplesIn n s, kicksIn n s) := by
  induction hrun generalizing b with
  | zero => rfl
  | @succ n s t u hstep _ ih =>
    obtain ⟨d, hd, hmore⟩ := step_eventsOf h hstep
    rw [traceOf_succ hstep, hmore, samplesIn_succ hstep, kicksIn_succ hstep, eventsThen, ih hd]

/-! ### One operation per cycle (R88) -/

theorem step_resetSeen (h : step s = .next t) : t.resetSeen = true := by
  obtain ⟨hrun, rfl⟩ := step_iff.mp h
  cases hrst : (nextPorts s).rst
  · simpa [cycleBody_no_rst hrst, hrst] using hrun
  · simp [cycleBody_rst hrst]

/-- After a RESET every run completes (R89). -/
theorem exists_runs (n : Nat) (hs : s.resetSeen = true) : ∃ u, Runs n s u := by
  induction n generalizing s with
  | zero => exact ⟨s, .zero s⟩
  | succ n ih =>
    have hstep := step_of (s := s) (.inr hs)
    obtain ⟨u, hrun⟩ := ih (step_resetSeen hstep)
    exact ⟨u, .succ hstep hrun⟩

/-- The line code of an operation selects that operation alone (R52). -/
theorem decodePorts_of_encode {i : Instr} {p : PortIn} (h : encode i = some (.ports p)) : decodePorts p = [i] := by
  have hwf : i.wellFormed = true := by
    cases i with
    | windowSkip => cases h
    | process => cases h
    | _ => rfl
  exact Except.ok.inj (decodeEncodeAgree.1 i _ hwf h)

theorem traceOf_of_encode {ops : List Instr} {driven : List PortIn} (later : List PortIn)
    (h : ops.map encode = driven.map (fun p => some (Code.ports p))) : traceOf ops.length (driven ++ later) = ops := by
  induction ops generalizing driven with
  | nil => rfl
  | cons i rest ih =>
    cases driven with
    | nil => cases h
    | cons p driven =>
      obtain ⟨hi, hrest⟩ := List.cons_eq_cons.mp h
      exact congrArg₂ (· ++ ·) (decodePorts_of_encode hi) (ih hrest)

end Sys2Proof.Machine

open Sys2Proof Sys2Proof.Machine

/-- Settles O45: a cycle's effects enter at the end of the pipeline, and each further clock brings them one place nearer to
the ports, whether the pipeline is still filling or full. -/
theorem portsShowEffectsAfterLatency : Obligations.PortsShowEffectsAfterLatency := by
  refine ⟨fun lat s t u hshort hcycle hrun hrst => ?_, fun lat n s t u hreset hcycle hn hrun hrst => ?_, fun _ => rfl,
    decLatency_pos⟩
  · obtain ⟨pipe, hle, hclocked⟩ := cycle_clocks hcycle
    have hdue : Due lat (cycleEffects t) (lat - 1) (clockPipe lat pipe (cycleEffects t)) :=
      clockPipe_due (by omega) rfl (by simp; omega)
    obtain ⟨n, hports⟩ := runsAt_shows hrun hrst hdue hclocked
    rw [hports]
    refine ⟨rfl, fun x hx => ?_, rfl, fun i hi => ?_, rfl, rfl, rfl⟩
    · rw [present_some_smp, cycleEffects_sample, hx, Option.getD_some]
    · rw [present_some_kickIntensity, cycleEffects_kick, hi, Option.getD_some]
  · obtain ⟨hlen, hlow⟩ := (cycle_clocked_reset hcycle hreset).filling (by simp; omega)
    exact runsAt_strobesLow hrun hrst (by simp at hlen; omega) hlow

/-- Settles O50: a cycle's list of operations acts on the core state as the cycle does, and the events of the cycle are those
of its first operation; then by induction on the run. -/
theorem transactionLevelAgrees : Obligations.TransactionLevelAgrees := by
  intro n s u hrun
  obtain ⟨v, hv, hcore⟩ := runs_stateAfter hrun (.refl s)
  exact ⟨⟨v, hv, hcore.coreState.symm⟩, runs_eventsOf hrun (.refl s)⟩

/-- Settles O42: the stages of a cycle write different parts of the state. -/
theorem cycleComposesByteRearmConfig : Obligations.CycleComposesByteRearmConfig := by
  intro s hs hrst
  have hs' : (beginCycle s).resetSeen = true := hs
  refine ⟨byteStage (nextPorts s) (beginCycle s), _, step_of (.inr hs), fun hv => byteStage_not_valid hv _,
    exec_byte_byteStage hs', exec_byteLast_byteStage hs', ?_⟩
  rw [cycleBody_no_rst hrst]
  refine ⟨?window, ?sample, ?kick, ?armed, ?upper, ?lower⟩
  case armed => simp [rearmStage_armed]
  case upper => simp [configStage_upper, upperFloor]
  case lower => simp [configStage_lower, lowerFloor]
  all_goals simp

/-- Settles O46: a sample leaves the window empty, and a sample needs nineteen bytes in it. -/
theorem samplesAreTwentyCyclesApart : Obligations.SamplesAreTwentyCyclesApart := by
  intro s t u n hstep hsample hn hrun
  obtain ⟨-, hempty⟩ := step_sample hstep hsample
  refine samplesIn_eq_nil hrun ?_
  rw [hempty, frameLen, List.length_nil]
  omega

/-- Settles O51: the trace of the cycles is the list itself, and O50's agreement carries over. -/
theorem oneOperationPerCycleAgrees : Obligations.OneOperationPerCycleAgrees := by
  intro ops driven later s hs hcodes hinputs
  obtain ⟨u, hrun⟩ := exists_runs ops.length hs
  obtain ⟨⟨v, hv, hcore⟩, hevents⟩ := transactionLevelAgrees ops.length s u hrun
  rw [hinputs, traceOf_of_encode later hcodes] at hv hevents
  exact ⟨u, v, hrun, hv, hcore, hevents⟩

/-- Settles O3: neither the sampling of the ports nor the clock edge writes the core state. -/
theorem idleChangesNothing : Obligations.IdleChangesNothing :=
  fun _ hs => ⟨exec_idle_of_seen hs, fun hops => ⟨_, step_idle hs hops, rfl, rfl, rfl⟩⟩

/-- Settles O40: a cycle performs its list of operations, one by one. -/
theorem stepRunsDecodedOperations : Obligations.StepRunsDecodedOperations := by
  refine fun s => ⟨fun i t hops hi => step_eq_next.mpr ⟨t, ?_, rfl⟩, fun i r => step_refused,
    fun i j t u hops hi hj => step_eq_next.mpr ⟨u, ?_, rfl⟩,
    fun i j k t u v hops hi hj hk => step_eq_next.mpr ⟨v, ?_, rfl⟩⟩
  · rw [hops, execAll_single hi]
  · rw [hops, execAll_cons_next hi, execAll_single hj]
  · rw [hops, execAll_cons_next hi, execAll_cons_next hj, execAll_single hk]

end

section
/-! PROOFS. Exceptional conditions (spec/60_exceptions.md R89 to R93): what may change the mode, and that nothing stops the
block once it has been reset. -/

namespace Sys2Proof.Machine

/-! ### The mode (R93) -/

/-- An evaluation that changes the mode crosses the edge of the mode it starts in (R71). -/
theorem armedAfter_ne {armed : Bool} {v upper lower : Word} (h : armedAfter armed v upper lower ≠ armed) :
    (armed = true ∧ gt32 v upper = true ∧ armedAfter armed v upper lower = false) ∨
    (armed = false ∧ lt32 v lower = true ∧ armedAfter armed v upper lower = true) := by
  cases armed with
  | true => exact .inl (by simpa using h)
  | false => exact .inr (by simpa using h)

end Sys2Proof.Machine

open Sys2Proof Sys2Proof.Machine

/-- Settles O39: a RESET cycle and a REARM arm, a cycle with neither and without a sample keeps the mode, and an evaluation
changes it only at an edge. -/
theorem modeChangesOnlyThreeWays : Obligations.ModeChangesOnlyThreeWays := by
  intro s t hstep hne
  rcases step_events_cases hstep with ⟨hrst, -, -, harmed, -⟩ | ⟨-, -, -, -, harmed⟩ | ⟨-, -, f, hsample, -, harmed, -⟩
  · exact .inl ⟨hrst, harmed⟩
  · split at harmed
    case isTrue hrearm => exact .inr (.inl ⟨hrearm, harmed⟩)
    case isFalse => exact absurd harmed hne
  · split at harmed
    case isTrue hrearm => exact .inr (.inl ⟨hrearm, harmed⟩)
    case isFalse =>
      rw [harmed] at hne ⊢
      exact .inr (.inr ⟨decodeFrame f, hsample, armedAfter_ne hne⟩)

/-- Settles O43: after a RESET a cycle performs its operations and keeps that a RESET has been seen, and each well-formed
operation completes on its own. -/
theorem everyCycleCompletes : Obligations.EveryCycleCompletes :=
  ⟨fun _ hs => ⟨_, step_of (.inr hs), step_resetSeen (step_of (.inr hs))⟩, fun _ _ hs hwf => exec_completes hs hwf⟩

end

section
/-! PROOFS. Reset and hazards (spec/70_reset_and_hazards.md R99, R107): the one state that a RESET cycle leaves, and what the
shared writes of a cycle cannot reach. -/

namespace Sys2Proof.Machine

variable {s : State}

/-! ### A RESET cycle (R99) -/

/-- RESET alone stands between the sampling of the ports and the clock edge. -/
theorem cycle_of_rst (lat : Nat) (h : (nextPorts s).rst = true) :
    cycle lat s = .next (endCycle lat (hardReset (beginCycle s))) := by
  rw [cycle_of (.inl h), cycleBody_rst h]

/-- The clock edge of a RESET cycle finds an empty pipeline and no event. -/
theorem endCycle_hardReset_strobesLow (lat : Nat) (s : State) : StrobesLow (endCycle lat (hardReset s)) := by
  unfold StrobesLow
  rw [endCycle_ports, hardReset_pipe, hardReset_effects, clockPipe_nil]
  split
  · exact ⟨rfl, rfl⟩
  · exact ⟨rfl, rfl⟩

/-! ### The byte of a cycle and its shared writes (R107) -/

/-- The byte group reads no other port than the three of its own. -/
theorem byteStage_congr {p q : PortIn} (hvalid : p.inValid = q.inValid) (hlast : p.inLast = q.inLast)
    (hdata : p.inData = q.inData) (s : State) : byteStage p s = byteStage q s := by
  rw [byteStage, byteStage, hvalid, hlast, hdata]

/-- The window and the events a driven cycle leaves are those of its byte group: REARM and the threshold writes come after
it and write other fields (R84). -/
theorem step_driveNext_byteStage {p : PortIn} (hs : s.resetSeen = true) (hrst : p.rst = false) :
    ∃ t, step (driveNext s p) = .next t ∧ t.window = (byteStage p (beginCycle s)).window ∧
      t.cycleSample = (byteStage p (beginCycle s)).cycleSample ∧
      t.cycleKick = (byteStage p (beginCycle s)).cycleKick := by
  have hports : nextPorts (driveNext s p) = p := rfl
  have hbegin : beginCycle (driveNext s p) = beginCycle s := rfl
  refine ⟨_, step_of (.inr hs), ?_⟩
  rw [hports, hbegin, cycleBody_no_rst hrst]
  simp

end Sys2Proof.Machine

open Sys2Proof Sys2Proof.Machine

/-- Settles O2: `cycle_of_rst` gives the state, and the clock edge finds nothing in it to show but the reset effects. -/
theorem resetCycleDominates : Obligations.ResetCycleDominates := by
  refine ⟨fun lat s hrst => ⟨_, cycle_of_rst lat hrst, ?_⟩, fun _ => rfl⟩
  obtain ⟨hsmp, hkick⟩ := endCycle_hardReset_strobesLow lat (beginCycle s)
  refine ⟨rfl, rfl, rfl, rfl, rfl, rfl, rfl, rfl, hsmp, hkick, rfl, ?_⟩
  rintro rfl
  exact ⟨rfl, rfl, rfl⟩

/-- Settles O44: both cycles have one byte group, and it alone decides the window and the events. -/
theorem sameCycleWritesAreNotSeen : Obligations.SameCycleWritesAreNotSeen := by
  intro s p q hs hp hq hvalid hlast hdata
  obtain ⟨t, hstep, hwindow, hsample, hkick⟩ := step_driveNext_byteStage hs hp
  obtain ⟨u, hstep', hwindow', hsample', hkick'⟩ := step_driveNext_byteStage hs hq
  rw [byteStage_congr hvalid hlast hdata] at hwindow hsample hkick
  exact ⟨t, u, hstep, hstep', hwindow.trans hwindow'.symm, hsample.trans hsample'.symm, hkick.trans hkick'.symm⟩

/-- Settles O57: the state a RESET cycle leaves owes nothing to the one it starts from. -/
theorem resetCycleEstablishesInvariant : Obligations.ResetCycleEstablishesInvariant :=
  fun _ hrst =>
    ⟨_, cycle_of_rst Config.decLatency hrst, rfl, endCycle_hardReset_legal _, endCycle_hardReset_rangesKept _ _⟩

/-- Settles O1: RESET is `hardReset`, which writes these fields and no other. -/
theorem resetLoadsResetValues : Obligations.ResetLoadsResetValues := fun _ => rfl

end
